-- ==== Sys2Proof/Word.lean ====
section
/-! DEFINITION. The words of the FDU and the closed enumeration of data-type tags (spec/30_encoding.md R53). -/

namespace Sys2Proof

/-- One 8-bit byte, the unit of addressing of the byte source (R30). Bit 7 is the most significant (R5). -/
abbrev Byte := BitVec 8

/-- One element of a payload: its bytes in stream order, byte 0 first (R5, R54). -/
abbrev Chunk := List Byte

/-- `DataTypeTag`, the closed enumeration of R53, in the document's listing order. -/
inductive DataType where
  | noData
  | bitArray
  | int16
  | int32
  | real32
  | real64
  | ascii
  deriving DecidableEq, Repr

/-- The seven tags, in the order of R53. -/
def DataType.all : List DataType :=
  [.noData, .bitArray, .int16, .int32, .real32, .real64, .ascii]

end Sys2Proof
end

