-- ==== Sys2Proof/Config.lean ====
section
/-! DEFINITION. What an FDU fixes for good: the parameters of spec/00_scope.md R4 whose value the spec
takes. `NAME_TABLE` and `N`, which R4 leaves OPEN, are fields of `State`, and `POS_W` does not arise, because
the cursor is a natural number (D16). -/

namespace Sys2Proof.Config

/-- `TAG_CODE` (R4, R53; decision D2): the `dataType` byte of each tag. -/
def tagCode : DataType → Byte
  | .noData => 0x00
  | .bitArray => 0x01
  | .int16 => 0x02
  | .int32 => 0x03
  | .real32 => 0x04
  | .real64 => 0x05
  | .ascii => 0x06

/-- `WIDTH(tag)` (R4, R53): the element width in bytes. -/
def width : DataType → Nat
  | .noData => 0
  | .bitArray => 1
  | .int16 => 2
  | .int32 => 4
  | .real32 => 4
  | .real64 => 8
  | .ascii => 1

/-- `TERM` (R4, R57): the terminator record type. -/
def term : Byte := 0x04

/-- `HDR_BYTES` (R4, R51): the size of a record header. -/
def hdrBytes : Nat := 4

/-- `ROUND` (R4, R75, R78; decision D3): whether the 53-bit significand `q` is incremented when the three
discarded bits are `g`. Round to nearest, ties to even. -/
def roundUp (q g : Nat) : Bool := g > 4 || (g == 4 && q % 2 == 1)

/-- The two entries of `NAME_TABLE` that the source pins (R4, R17; decision D18). -/
def pinnedNames : List (Byte × String) := [(0x00, "HEADER"), (0x04, "ENDLIB")]

/-- What an offset of the byte source below `N` reads as when the list of cells does not name it
(DESIGN CHOICE, log entry 1). -/
def unlistedByte : Byte := 0x00

end Sys2Proof.Config
end

