-- ==== Sys2Proof/Syntax.lean ====
section
/-! DEFINITION. The operations of spec/opcode_table.json, one constructor a row, and the record header they
are read from (spec/30_encoding.md R51, R52). -/

namespace Sys2Proof

/-- The four header bytes of a record, as the fields of R51. `dataType` is the raw byte: it need not be one
of the seven tags. -/
structure Header where
  length     : BitVec 16
  recordType : Byte
  dataType   : Byte
  deriving DecidableEq, Repr

/-- The two formats of the opcode table: a record header word `H` (R52) and a CF64 chunk (R56). -/
inductive Format where
  | record
  | cf64
  deriving DecidableEq, Repr

/-- One constructor per row of the opcode table. The seven FD rows carry the header fields that their own
`dataType` byte leaves free; the payload they work on stands in the byte source behind the header (R51).
`sqTerm` is the name of a step on a record of type 0x04 (R61, R135), whatever its tag. `rfRead` and `sqStep`
fix no bit of the header (their mask is 0) and take no operand from the stream (R110, R131). -/
inductive Instr where
  | fdNodata   (length : BitVec 16) (recordType : Byte)
  | fdBitarray (length : BitVec 16) (recordType : Byte)
  | fdInt16    (length : BitVec 16) (recordType : Byte)
  | fdInt32    (length : BitVec 16) (recordType : Byte)
  | fdReal32   (length : BitVec 16) (recordType : Byte)
  | fdReal64   (length : BitVec 16) (recordType : Byte)
  | fdAscii    (length : BitVec 16) (recordType : Byte)
  | fcConvert  (sign : BitVec 1) (exponent : BitVec 7) (mantissa : BitVec 56)
  | rfRead
  | sqStep
  | sqTerm     (length : BitVec 16) (tag : DataType)
  deriving DecidableEq, Repr

/-- The table's `format` of each row. -/
def Instr.format : Instr → Format
  | .fdNodata _ _ => .record
  | .fdBitarray _ _ => .record
  | .fdInt16 _ _ => .record
  | .fdInt32 _ _ => .record
  | .fdReal32 _ _ => .record
  | .fdReal64 _ _ => .record
  | .fdAscii _ _ => .record
  | .fcConvert _ _ _ => .cf64
  | .rfRead => .record
  | .sqStep => .record
  | .sqTerm _ _ => .record

/-- The FD row of a tag, with the header fields it leaves free. -/
def Instr.ofTag (t : DataType) (length : BitVec 16) (recordType : Byte) : Instr :=
  match t with
  | .noData => .fdNodata length recordType
  | .bitArray => .fdBitarray length recordType
  | .int16 => .fdInt16 length recordType
  | .int32 => .fdInt32 length recordType
  | .real32 => .fdReal32 length recordType
  | .real64 => .fdReal64 length recordType
  | .ascii => .fdAscii length recordType

end Sys2Proof
end

