-- ==== Sys2Proof/WellFormed.lean ====
section
/-! DEFINITION. Which terms of `Instr` a well-formed stream can hold: a legal length for the tag
(spec/30_encoding.md R54, R59) and, for the seven FD rows, a record type other than the terminator's, whose
records are the row SQ.TERM (R61). -/

namespace Sys2Proof

/-- A length a record of tag `t` may have: at least 4, the header alone, and `length - 4` a multiple of the
width, where the only multiple of the width 0 is 0 (R54, R59; C4). -/
def legalLength (t : DataType) (length : BitVec 16) : Bool :=
  decide (4 ≤ length.toInt) && decide ((Config.width t : Int) ∣ length.toInt - 4)

/-- The check of an FD row. -/
def wfRecord (t : DataType) (length : BitVec 16) (recordType : Byte) : Bool :=
  legalLength t length && decide (recordType ≠ Config.term)

/-- Well-formedness of an operation. -/
def Instr.wf : Instr → Bool
  | .fdNodata length rt => wfRecord .noData length rt
  | .fdBitarray length rt => wfRecord .bitArray length rt
  | .fdInt16 length rt => wfRecord .int16 length rt
  | .fdInt32 length rt => wfRecord .int32 length rt
  | .fdReal32 length rt => wfRecord .real32 length rt
  | .fdReal64 length rt => wfRecord .real64 length rt
  | .fdAscii length rt => wfRecord .ascii length rt
  | .fcConvert _ _ _ => true
  | .rfRead => true
  | .sqStep => true
  | .sqTerm length t => legalLength t length

end Sys2Proof
end

