-- ==== Sys2Proof/Decode.lean ====
section
/-! DEFINITION. Bytes to operations and back (spec/30_encoding.md R51 to R58). Decoding a record header looks at the tag and
the record type only: a length that breaks R54 is RF's to report when the record is read (R114), so it is no
reason to refuse the header. -/

namespace Sys2Proof

/-! ### Big-endian assembly (spec/20_memory.md R33): the byte at the lower offset is the more significant. -/

/-- `be(B[0..1])`. -/
def be16 (b0 b1 : Byte) : BitVec 16 := b0 ++ b1

/-- `be(B[0..3])`. -/
def be32 (b0 b1 b2 b3 : Byte) : BitVec 32 := b0 ++ b1 ++ b2 ++ b3

/-- `be(B[0..7])`. -/
def be64 (b0 b1 b2 b3 b4 b5 b6 b7 : Byte) : BitVec 64 :=
  b0 ++ b1 ++ b2 ++ b3 ++ b4 ++ b5 ++ b6 ++ b7

/-- The two bytes of a 16-bit quantity, the more significant first. -/
def bytes16 (v : BitVec 16) : List Byte := [v.extractLsb' 8 8, v.extractLsb' 0 8]

/-- The four bytes of a 32-bit quantity, the most significant first. -/
def bytes32 (v : BitVec 32) : List Byte :=
  [v.extractLsb' 24 8, v.extractLsb' 16 8, v.extractLsb' 8 8, v.extractLsb' 0 8]

/-- The eight bytes of a 64-bit quantity, the most significant first. -/
def bytes64 (v : BitVec 64) : List Byte :=
  [v.extractLsb' 56 8, v.extractLsb' 48 8, v.extractLsb' 40 8, v.extractLsb' 32 8,
   v.extractLsb' 24 8, v.extractLsb' 16 8, v.extractLsb' 8 8, v.extractLsb' 0 8]

/-! ### Decoding -/

/-- Why bytes are no operation. -/
inductive Reject where
  /-- Fewer than the four bytes of a header, or the eight of a CF64 chunk. -/
  | tooShort
  /-- A `dataType` byte outside the seven codes of R53 (R58). -/
  | illegalTag (code : Byte)
  deriving DecidableEq, Repr

/-- The tag a `dataType` byte stands for; none outside the closed enumeration (R53, R113). -/
def tagOfCode (code : Byte) : Option DataType :=
  DataType.all.find? fun t => Config.tagCode t == code

/-- The fields of the header word `H = be(B[0..3])` (R52). -/
def Header.ofWord (h : BitVec 32) : Header where
  length := h.extractLsb' 16 16
  recordType := h.extractLsb' 8 8
  dataType := h.extractLsb' 0 8

/-- The row of the opcode table that a header selects: SQ.TERM for the terminator type, else the FD row of
its tag. -/
def decodeHeader (h : Header) : Except Reject Instr :=
  match tagOfCode h.dataType with
  | none => .error (.illegalTag h.dataType)
  | some t =>
    if h.recordType = Config.term then .ok (.sqTerm h.length t)
    else .ok (Instr.ofTag t h.length h.recordType)

/-- FC.CONVERT on a CF64 pattern: its fields `S`, `E` and `M` (R56). -/
def decodeCf64 (c : BitVec 64) : Instr :=
  .fcConvert (c.extractLsb' 63 1) (c.extractLsb' 56 7) (c.extractLsb' 0 56)

/-- Decode the operation that stands first in `bytes`, in the given format, and return the bytes behind its
word. Total. -/
def decode (format : Format) (bytes : List Byte) : Except Reject (Instr × List Byte) :=
  match format, bytes with
  | .record, b0 :: b1 :: b2 :: b3 :: rest =>
    (decodeHeader (Header.ofWord (be32 b0 b1 b2 b3))).map fun i => (i, rest)
  | .cf64, b0 :: b1 :: b2 :: b3 :: b4 :: b5 :: b6 :: b7 :: rest =>
    .ok (decodeCf64 (be64 b0 b1 b2 b3 b4 b5 b6 b7), rest)
  | _, _ => .error .tooShort

/-! ### Encoding -/

/-- The four bytes of a header (R51). -/
def Header.bytes (h : Header) : List Byte := bytes16 h.length ++ [h.recordType, h.dataType]

/-- The bytes of an operation: the header of an FD row or of SQ.TERM, the chunk of FC.CONVERT. RF.READ and
SQ.STEP have mask 0 in the table: they apply to every header and have no bytes of their own. -/
def encode : Instr → List Byte
  | .fdNodata length rt => Header.bytes ⟨length, rt, Config.tagCode .noData⟩
  | .fdBitarray length rt => Header.bytes ⟨length, rt, Config.tagCode .bitArray⟩
  | .fdInt16 length rt => Header.bytes ⟨length, rt, Config.tagCode .int16⟩
  | .fdInt32 length rt => Header.bytes ⟨length, rt, Config.tagCode .int32⟩
  | .fdReal32 length rt => Header.bytes ⟨length, rt, Config.tagCode .real32⟩
  | .fdReal64 length rt => Header.bytes ⟨length, rt, Config.tagCode .real64⟩
  | .fdAscii length rt => Header.bytes ⟨length, rt, Config.tagCode .ascii⟩
  | .fcConvert s e m => bytes64 (s ++ e ++ m)
  | .rfRead => []
  | .sqStep => []
  | .sqTerm length t => Header.bytes ⟨length, Config.term, Config.tagCode t⟩

/-! ### The host's question -/

/-- The format of a word of `nbits` bits: a header up to 32 bits, a CF64 chunk up to 64. -/
def formatOfBits (nbits : Nat) : Option Format :=
  if nbits ≤ 32 then some .record else if nbits ≤ 64 then some .cf64 else none

/-- The bytes, as they stand in the byte source or on the chunk input, of a word `w` numbered as the opcode
table numbers it: bit 0 the least significant of `H` (R52) or of the chunk (R56). -/
def wordBytes (format : Format) (w : Nat) : List Byte :=
  match format with
  | .record => bytes32 (BitVec.ofNat 32 w)
  | .cf64 => bytes64 (BitVec.ofNat 64 w)

/-- The operation the decoder reads from the table word `w` of `nbits` bits; bits above `nbits` are 0. -/
def decodeTableWord (nbits w : Nat) : Option Instr :=
  match formatOfBits nbits with
  | none => none
  | some f =>
    match decode f (wordBytes f (w % 2 ^ nbits)) with
    | .ok (i, _) => some i
    | .error _ => none

end Sys2Proof
end

