-- ==== Sys2Proof/Machine/State.lean ====
section
/-! DEFINITION. The state of the FDU (spec/10_state.md), the reasons a step can stop, and the state after reset. -/

namespace Sys2Proof.Machine

/-- `ST`, the sequencer's state (R14, R130). The code 3 is never produced (U16), so it has no constructor. -/
inductive SeqState where
  | reading
  | done
  | error
  deriving DecidableEq, Repr

/-- The seven error kinds, a closed set, in the order of the taxonomy (R150). -/
inductive ErrKind where
  | malformedHeader
  | unsupportedDataType
  | corruptRecordLength
  | truncatedPayload
  | invalidEncoding
  | unknownRecordType
  | missingTerminator
  deriving DecidableEq, Repr

/-- `ERR` while it names an error (R15): `ERR_KIND`, `ERR_POS` and `ERR_IDX`. -/
structure ErrRecord where
  /-- Which of the seven kinds. -/
  kind : ErrKind
  /-- The start offset of the failing record; `N` for MissingTerminator. -/
  pos  : Nat
  /-- The number of records fully decoded before it. -/
  idx  : Nat
  deriving DecidableEq, Repr

/-- The tagged union of R102. Integers and floats are bit patterns; the value of an integer is its
two's-complement reading. -/
inductive DecodedValue where
  | none
  | int16 (v : BitVec 16)
  | int32 (v : BitVec 32)
  | float32 (v : BitVec 32)
  | float64 (v : BitVec 64)
  | character (v : Byte)
  deriving DecidableEq, Repr

/-- A Record, as `REC` holds it (R11): the header fields and the payload's chunks in stream order. -/
structure Record where
  length     : BitVec 16
  recordType : Byte
  dataType   : Byte
  payload    : List Chunk
  deriving DecidableEq, Repr

/-- What `REC` holds while no record is under decode: at reset, where R21 leaves it unspecified, and after a record
has been discarded or dropped (R11, R161). The least record that meets the invariant of R11: a header alone
(DESIGN CHOICE, log entry 4). -/
def Record.blank : Record where
  length := 4
  recordType := 0x00
  dataType := 0x00
  payload := []

/-- The outputs of the FD element datapath (R19): `fd_emit_o`, `fd_kind_o`, `fd_value_o`, `fd_err_o`. -/
structure ElementOut where
  emit  : Bool
  kind  : BitVec 3
  value : BitVec 64
  err   : BitVec 3
  deriving DecidableEq, Repr

/-- What the host can put to the FDU other than a step (DESIGN CHOICE, log entry 3): the reset command (R20)
and the transactions of the components used alone (R19, R100, R110). -/
inductive Call where
  /-- The reset command (R180). -/
  | reset
  /-- FC's `convert`, with `fc_chunk_i` (R19). -/
  | convert (chunk : BitVec 64)
  /-- FD's element datapath, with `fd_tag_i` and `fd_chunk_i` (R19). -/
  | element (tag : Byte) (chunk : BitVec 64)
  /-- FD's `decode` on a record the host gives (R19, R100). -/
  | decode (r : Record)
  /-- FD's `decode` on the record that `REC` holds (R11). -/
  | decodeLatch
  /-- RF's `read_record` at the cursor (R110). -/
  | readRecord
  deriving DecidableEq, Repr

/-- What a component used alone answers (log entry 3). -/
inductive Reply where
  /-- `fc_result_o` (R19). -/
  | float64 (r : BitVec 64)
  /-- The outputs of the element datapath (R19). -/
  | element (o : ElementOut)
  /-- FD's `ok(values)` (R90). -/
  | values (vs : List DecodedValue)
  /-- RF's `ok(Record, pos')` (R110). -/
  | record (r : Record) (pos' : Nat)
  /-- `err(K)` of FD or RF (R90, R110). -/
  | error (k : ErrKind)
  deriving DecidableEq, Repr

/-- The whole state. `src`, `n` and `names` are the parameters of the run, which the host supplies before it
(R182) and no step writes; the rest is the state of spec/10_state.md; `call` and `reply` are the host's side
of the components' own interfaces. -/
structure State where
  /-- `SRC` (R30): the bytes at offsets below `n`, in the canonical form of `Mem.wf`. -/
  src   : List Host.Cell
  /-- `N` (R30). -/
  n     : Nat
  /-- `NAME_TABLE` (R17), a partial map: the first entry of a byte counts. -/
  names : List (Byte × String)
  /-- The position cursor (R12). -/
  pos   : Nat
  /-- `ST` (R14). -/
  st    : SeqState
  /-- `ERR` (R15); none while `ERR_KIND = 0`, when the other two fields carry no meaning (U16). -/
  err   : Option ErrRecord
  /-- `OUT` (R16), oldest pair first. -/
  out   : List (String × List DecodedValue)
  /-- `REC` (R11); `Record.blank` while no record is under decode. -/
  latch : Record
  /-- The host's pending call, served before the sequencer's next step. -/
  call  : Option Call
  /-- The answer to the last call that has one. -/
  reply : Option Reply
  deriving DecidableEq, Repr

/-- Why the machine stops with a fault. The seven error kinds of the spec are not here: they are entries to
the Error state (R161), which is a next state. -/
inductive Fault where
  /-- Raised by the sequencer's step and by RF.READ when `pos > N`: outside the operand range of R110, and
  R12 says `pos <= N` always holds. Safe: the machine never gets there from a state with `pos <= N`. -/
  | cursorBeyondSource
  deriving DecidableEq, Repr

/-- Why an instruction is refused. -/
inductive Refusal where
  /-- Raised by `exec`'s arm of an instruction without a meaning; no arm raises it. Safe. -/
  | notModelled (mnemonic : String)
  /-- Raised by FD on a Record outside its contract: a chunk of the wrong width or a wrong chunk count (R90,
  U9). Safe: no record that RF has framed is one. -/
  | recordOutsideContract
  deriving DecidableEq, Repr

/-- The machine right after reset (R21), before the host has supplied a source: `ST = Reading`, `pos = 0`,
`OUT` empty, `ERR_KIND = 0`. The source is empty and the name table holds the two pinned entries (DESIGN
CHOICE, log entries 1 and 2), `REC` holds the blank record (log entry 4) and no call is pending (log entry 3). -/
def State.reset : State where
  src := []
  n := 0
  names := Config.pinnedNames
  pos := 0
  st := .reading
  err := none
  out := []
  latch := Record.blank
  call := none
  reply := none

end Sys2Proof.Machine
end

