-- ==== Sys2Proof/Machine/Flags.lean ====
section
/-! DEFINITION. The FDU has no flags and no condition codes (spec/10_state.md R13). The status a host can read is `ST` and
`ERR`; their codes, the codes of the value kinds and the packing on the value bus stand here (R14, R15, R101,
R102, R150). -/

namespace Sys2Proof.Machine

/-- `ST_CODE` (R14, D15). -/
def SeqState.code : SeqState → BitVec 2
  | .reading => 0
  | .done => 1
  | .error => 2

/-- `ERR_CODE` of a kind (R150, D14). -/
def ErrKind.code : ErrKind → BitVec 3
  | .malformedHeader => 1
  | .unsupportedDataType => 2
  | .corruptRecordLength => 3
  | .truncatedPayload => 4
  | .invalidEncoding => 5
  | .unknownRecordType => 6
  | .missingTerminator => 7

/-- `ST` as the host reads it (R14, R20). -/
def State.stCode (s : State) : BitVec 2 := s.st.code

/-- `ERR_KIND` as the host reads it: 0 while there is no error (R15). -/
def State.errKind (s : State) : BitVec 3 :=
  match s.err with
  | none => 0
  | some e => e.kind.code

/-- `KIND_CODE` of a value (R102, D6). -/
def DecodedValue.kindCode : DecodedValue → BitVec 3
  | .none => 0
  | .int16 _ => 1
  | .int32 _ => 2
  | .float32 _ => 3
  | .float64 _ => 4
  | .character _ => 5

/-- The value bus `fd_value_o` (R101): right-aligned, integers sign-extended, everything else zero-extended. -/
def DecodedValue.bus : DecodedValue → BitVec 64
  | .none => 0
  | .int16 v => v.signExtend 64
  | .int32 v => v.signExtend 64
  | .float32 v => v.zeroExtend 64
  | .float64 v => v
  | .character v => v.zeroExtend 64

/-- The integer an int16 or int32 value denotes, two's complement (R93, R94). -/
def DecodedValue.toInt? : DecodedValue → Option Int
  | .int16 v => some v.toInt
  | .int32 v => some v.toInt
  | _ => Option.none

/-- A value that may stand in `OUT`: no operation emits `none`, and a character is a code in `0x00..0x7F`
(R102). -/
def DecodedValue.legal : DecodedValue → Bool
  | .none => false
  | .character v => !v.getLsbD 7
  | _ => true

end Sys2Proof.Machine
end

