-- ==== Sys2Proof/Machine/Operands.lean ====
section
/-! DEFINITION. Payload chunks: cutting a payload (spec/30_encoding.md R54), assembling each chunk form (R55), and the
invariant of a Record (spec/10_state.md R11). -/

namespace Sys2Proof.Machine

/-- The chunks of a payload: `n` pieces of `w` bytes in stream order, `p[i*W .. (i+1)*W - 1]` (R54, R116). -/
def cutChunks (w n : Nat) (p : List Byte) : List Chunk :=
  (List.range n).map fun i => (p.drop (i * w)).take w

/-- The element count of a payload of `k` bytes (R54): 0 for the width 0. -/
def elementCount (w k : Nat) : Nat := if w = 0 then 0 else k / w

/-- The one byte of a BitArray or ASCII chunk (R55). -/
def chunk8 : Chunk → Option Byte
  | [b0] => some b0
  | _ => none

/-- The 16 bits of an Int16 chunk (R55). -/
def chunk16 : Chunk → Option (BitVec 16)
  | [b0, b1] => some (be16 b0 b1)
  | _ => none

/-- The 32 bits of an Int32 or Real32 chunk (R55). -/
def chunk32 : Chunk → Option (BitVec 32)
  | [b0, b1, b2, b3] => some (be32 b0 b1 b2 b3)
  | _ => none

/-- The 64 bits of a Real64Custom chunk (R55). -/
def chunk64 : Chunk → Option (BitVec 64)
  | [b0, b1, b2, b3, b4, b5, b6, b7] => some (be64 b0 b1 b2 b3 b4 b5 b6 b7)
  | _ => none

/-- A left-aligned chunk of `w` bytes on the 64-bit input of the element datapath: byte 0 in bits 63:56, the
bits below the chunk's width ignored (R19). -/
def chunkOfBus (w : Nat) (c : BitVec 64) : Chunk := (bytes64 c).take w

/-- The invariant of a Record for its tag (R11): a legal length, the element count it implies, and chunks of
the tag's width. -/
def Record.wfFor (t : DataType) (r : Record) : Bool :=
  decide (4 ≤ r.length.toInt) && decide ((Config.width t : Int) ∣ r.length.toInt - 4) &&
  decide (r.payload.length = elementCount (Config.width t) (r.length.toInt - 4).toNat) &&
  r.payload.all fun c => c.length == Config.width t

/-- The invariant of a Record that RF has produced (R11). -/
def Record.wf (r : Record) : Bool :=
  match tagOfCode r.dataType with
  | none => false
  | some t => r.wfFor t

end Sys2Proof.Machine
end

