-- ==== Sys2Proof/Machine/Ops.lean ====
section
/-! DEFINITION. The named operations over the byte source and the sequencer's state: reading bytes (spec/20_memory.md R31),
the name lookup (R133), the commit of a successful step (R134), the entry to Error, which is this machine's
taking of an exception (R161), and reset, the only way out of it (R162, R180). -/

namespace Sys2Proof.Machine

/-! ### The byte source -/

/-- What offset `a` reads as. -/
def Mem.get : List Host.Cell → Nat → Byte
  | [], _ => Config.unlistedByte
  | (k, b) :: m, a => if k = a then b else Mem.get m a

/-- Store `b` at offset `a` and keep the canonical form: rising offsets, and no cell that equals what an
unlisted offset reads as. Only the host stores into the source, before a run (R2, R182). -/
def Mem.set : List Host.Cell → Nat → Byte → List Host.Cell
  | [], a, b => if b = Config.unlistedByte then [] else [(a, b)]
  | (k, c) :: m, a, b =>
    if a < k then (if b = Config.unlistedByte then (k, c) :: m else (a, b) :: (k, c) :: m)
    else if a = k then (if b = Config.unlistedByte then m else (a, b) :: m)
    else (k, c) :: Mem.set m a b

/-- Store the bytes at consecutive offsets from `a`. -/
def Mem.setBytes (m : List Host.Cell) (a : Nat) : List Byte → List Host.Cell
  | [] => m
  | b :: bs => Mem.setBytes (Mem.set m a b) (a + 1) bs

/-- The canonical form from offset `lo` on. -/
def Mem.wfFrom (lo : Nat) : List Host.Cell → Bool
  | [] => true
  | (k, b) :: m => decide (lo ≤ k) && decide (b ≠ Config.unlistedByte) && Mem.wfFrom (k + 1) m

/-- The canonical form: offsets strictly rising, no cell that an unlisted offset reads as. -/
def Mem.wf (m : List Host.Cell) : Bool := Mem.wfFrom 0 m

/-- `SRC[a], SRC[a+1], ..., SRC[a+k-1]`, in that order. -/
def Mem.bytes (m : List Host.Cell) (a k : Nat) : List Byte :=
  (List.range k).map fun i => Mem.get m (a + i)

/-- `MemRead(addr, n)` (R31): defined only when `addr + n <= N`. It has no side effect. -/
def State.memRead (s : State) (addr k : Nat) : Option (List Byte) :=
  if addr + k ≤ s.n then some (Mem.bytes s.src addr k) else none

/-- The byte at one offset of the source, as the statements read it. -/
def State.byte (s : State) (a : Nat) : Byte := Mem.get s.src a

/-- The four bytes at the cursor as a header; none when fewer than `HDR_BYTES` remain (R111, R112). -/
def State.header (s : State) : Option Header :=
  match s.memRead s.pos Config.hdrBytes with
  | some [b0, b1, b2, b3] => some (Header.ofWord (be32 b0 b1 b2 b3))
  | _ => none

/-- The host's supply of a source and a name table before a run (R182). -/
def State.supply (s : State) (bytes : List Byte) (names : List (Byte × String)) : State :=
  { s with src := Mem.setBytes [] 0 bytes, n := bytes.length, names := names }

/-! ### The name table -/

/-- The first entry of a record type in a table (R17, R133). -/
def lookupName : List (Byte × String) → Byte → Option String
  | [], _ => none
  | (k, name) :: t, rt => if k = rt then some name else lookupName t rt

/-- `NAME_TABLE[recordType]`, none when it is absent (R133). -/
def State.nameOf (s : State) (rt : Byte) : Option String := lookupName s.names rt

/-! ### The sequencer's writes -/

/-- Put a record into `REC` (R11). -/
def State.hold (s : State) (r : Record) : State := { s with latch := r }

/-- `Emit(name, values)` (R35): append after the last element of `OUT`. -/
def State.emit (s : State) (name : String) (values : List DecodedValue) : State :=
  { s with out := s.out ++ [(name, values)] }

/-- The entry to Error on a raise of `kind` (R136, R161): `ERR` takes the kind, the start offset of the
failing record and the number of records decoded before it; `REC` is dropped; nothing else changes. There is
no handler and no return (R162). -/
def State.raise (s : State) (kind : ErrKind) : State :=
  { s with st := .error, err := some ⟨kind, s.pos, s.out.length⟩, latch := Record.blank }

/-- The commit of a successful step (R134, R135): emit, move the cursor, discard `REC`, and end the run after
the terminator. -/
def State.commit (s : State) (rt : Byte) (name : String) (values : List DecodedValue) (pos' : Nat) : State :=
  { s.emit name values with
    pos := pos'
    latch := Record.blank
    st := if rt = Config.term then .done else s.st }

/-- Reset applied to any state (R180): every state element to its reset value; `SRC`, `N` and `NAME_TABLE`
are not touched. FC and FD have nothing to reset (R181), so their last answer stays. -/
def State.applyReset (s : State) : State :=
  { s with pos := 0, st := .reading, err := none, out := [], latch := Record.blank, call := none }

/-- Take a call off with no effect: what R137 and R162 leave of a transaction on the run's own record once the run
is over. -/
def State.dismiss (s : State) : State := { s with call := none }

/-- Post the answer of a component used alone and take its call off. -/
def State.answer (s : State) (r : Reply) : State := { s with call := none, reply := some r }

end Sys2Proof.Machine
end

