-- ==== Sys2Proof/Machine/FloatConverter.lean ====
section
/-! DEFINITION. FloatConverter (spec/40_float_converter.md): CF64 to binary64, bit by bit as R78 writes it. -/

namespace Sys2Proof.Machine

/-- `clz56(M)`: the number of leading zero bits of the 56-bit mantissa, 0 to 56. -/
def clz56 (m : BitVec 56) : Nat := if m = 0 then 56 else 55 - m.toNat.log2

/-- The normalised mantissa `Nm = M << lz` (R78). -/
def normalised (m : BitVec 56) : BitVec 56 := m <<< clz56 m

/-- The unbiased binary exponent `e = (55 - lz) + 4*E - 312`, before the carry of rounding (R78). -/
def unbiased (e : BitVec 7) (m : BitVec 56) : Int := (55 - (clz56 m : Int)) + 4 * e.toNat - 312

/-- `q'` before the carry test: the upper 53 bits of the normalised mantissa, incremented when `ROUND` says
so on the 3 discarded bits (R78). -/
def roundedSignificand (m : BitVec 56) : Nat :=
  let q := (normalised m).toNat / 8
  let g := (normalised m).toNat % 8
  q + if Config.roundUp q g then 1 else 0

/-- `FC.CONVERT` (R78): sign, biased exponent and the 52 fraction bits below the hidden bit. A mantissa of
zero gives a zero with the sign copied (R80); a significand rounded up to `2^53` is `2^52` with the exponent
one higher. -/
def convert (s : BitVec 1) (e : BitVec 7) (m : BitVec 56) : BitVec 64 :=
  if m = 0 then s ++ (0 : BitVec 63)
  else
    let q := roundedSignificand m
    let q' := if q = 2 ^ 53 then 2 ^ 52 else q
    let x := if q = 2 ^ 53 then unbiased e m + 1 else unbiased e m
    s ++ BitVec.ofInt 11 (x + 1023) ++ BitVec.ofNat 52 q'

/-- `convert` on a CF64 pattern `c = be(B[0..7])` (R56, R70). -/
def convertPattern (c : BitVec 64) : BitVec 64 :=
  convert (c.extractLsb' 63 1) (c.extractLsb' 56 7) (c.extractLsb' 0 56)

/-- The meaning of FC.CONVERT: it is pure (R70), so all it does is answer with the pattern on `fc_result_o`
(R19). -/
def execFcConvert (sign : BitVec 1) (exponent : BitVec 7) (mantissa : BitVec 56) (s : State) :
    Host.Outcome State Fault Refusal :=
  .next (s.answer (.float64 (convert sign exponent mantissa)))

end Sys2Proof.Machine
end

