-- ==== Sys2Proof/Machine/RecordFramer.lean ====
section
/-! DEFINITION. RecordDecoder, the record framer (spec/42_record_framer.md): RF.READ and its checks in the order of R119. -/

namespace Sys2Proof.Machine

/-- RF's length check (R114): true when the length is corrupt for the tag. The case `length < 4` is tested
first, then the width 0, then divisibility. -/
def corruptLength (t : DataType) (length : BitVec 16) : Bool :=
  if length.toInt < 4 then true
  else if Config.width t = 0 then decide (length.toInt ≠ 4)
  else decide ((length.toInt - 4) % (Config.width t : Int) ≠ 0)

/-- RF.READ from its header on (R113 to R117): the tag check, the length check, the payload read and the
new cursor `pos + length`. -/
def rfFrame (s : State) (h : Header) : Except ErrKind (Record × Nat) :=
  match tagOfCode h.dataType with
  | none => .error .unsupportedDataType
  | some t =>
    if corruptLength t h.length then .error .corruptRecordLength
    else
      let k := (h.length.toInt - 4).toNat
      match s.memRead (s.pos + Config.hdrBytes) k with
      | none => .error .truncatedPayload
      | some p =>
        let w := Config.width t
        .ok (⟨h.length, h.recordType, h.dataType, cutChunks w (elementCount w k) p⟩, s.pos + h.length.toInt.toNat)

/-- RF.READ (R110): MalformedHeader when fewer than four bytes remain (R111), else the header's checks. -/
def rfRead (s : State) : Except ErrKind (Record × Nat) :=
  match s.header with
  | none => .error .malformedHeader
  | some h => rfFrame s h

/-- The meaning of RF.READ used alone (R110): on success `REC` takes the record and the answer is
`ok(Record, pos')`; the cursor is the sequencer's to move. On failure the answer is `err(K)` and nothing is
written (R120). In Done and Error no operation reads or re-reads a record and no state changes (R137, R138,
R162), so all that happens there is that the call is taken off. -/
def execRfRead (s : State) : Host.Outcome State Fault Refusal :=
  if s.st ≠ .reading then .next s.dismiss
  else if s.n < s.pos then .fault .cursorBeyondSource
  else
    match rfRead s with
    | .ok (r, pos') => .next ((s.hold r).answer (.record r pos'))
    | .error k => .next (s.answer (.error k))

end Sys2Proof.Machine
end

