-- ==== Sys2Proof/Machine/RecordStep.lean ====
section
/-! DEFINITION. The element-wise decoding that every FD operation shares (spec/41_field_decoder.md R98, R99) and the record
step that every row of the header shares (spec/43_sequencer.md R131): frame, decode, look the name up, commit
or enter Error. -/

namespace Sys2Proof.Machine

/-- What FD makes of one chunk (R98): one value, nothing, an error, or a chunk outside FD's contract (U9). -/
inductive Element where
  | emit (v : DecodedValue)
  | nothing
  | err (k : ErrKind)
  | outside
  deriving DecidableEq, Repr

/-- What FD makes of a record: `ok(values)`, `err(K)`, or a record outside its contract (R90, U9). -/
inductive Decoded where
  | ok (vs : List DecodedValue)
  | err (k : ErrKind)
  | outside
  deriving DecidableEq, Repr

/-- Decode a payload chunk by chunk (R98): values keep the order of their chunks, and the first error fails
the whole record with no value left (R99). -/
def decodeChunks (f : Chunk → Element) : List Chunk → Decoded
  | [] => .ok []
  | c :: cs =>
    match f c with
    | .err k => .err k
    | .outside => .outside
    | .nothing => decodeChunks f cs
    | .emit v =>
      match decodeChunks f cs with
      | .ok vs => .ok (v :: vs)
      | .err k => .err k
      | .outside => .outside

/-- One chunk of FD.NODATA: nothing (R91). -/
def elementNodata : Chunk → Element := fun _ => .nothing

/-- One chunk of FD.BITARRAY: ignored, whatever it is (R92). -/
def elementBitarray : Chunk → Element := fun _ => .nothing

/-- One chunk of FD.INT16 (R93). -/
def elementInt16 (c : Chunk) : Element :=
  match chunk16 c with
  | some v => .emit (.int16 v)
  | none => .outside

/-- One chunk of FD.INT32 (R94). -/
def elementInt32 (c : Chunk) : Element :=
  match chunk32 c with
  | some v => .emit (.int32 v)
  | none => .outside

/-- One chunk of FD.REAL32: the pattern unchanged (R95). -/
def elementReal32 (c : Chunk) : Element :=
  match chunk32 c with
  | some v => .emit (.float32 v)
  | none => .outside

/-- One chunk of FD.REAL64: FC.CONVERT of it (R96). -/
def elementReal64 (c : Chunk) : Element :=
  match chunk64 c with
  | some v => .emit (.float64 (convertPattern v))
  | none => .outside

/-- One chunk of FD.ASCII: a byte with bit 7 set is InvalidEncoding (R97). -/
def elementAscii (c : Chunk) : Element :=
  match chunk8 c with
  | some v => if v.getLsbD 7 then .err .invalidEncoding else .emit (.character v)
  | none => .outside

/-- The element operation that a tag selects (R90). -/
def elementOf : DataType → Chunk → Element
  | .noData => elementNodata
  | .bitArray => elementBitarray
  | .int16 => elementInt16
  | .int32 => elementInt32
  | .real32 => elementReal32
  | .real64 => elementReal64
  | .ascii => elementAscii

/-- FD's `decode` on a record that RF has framed (R90): it dispatches on `dataType` alone. A tag outside the
seven is an error here too (R100). -/
def fdDecode (r : Record) : Decoded :=
  match tagOfCode r.dataType with
  | none => .err .unsupportedDataType
  | some t => decodeChunks (elementOf t) r.payload

/-- The end of a record step, once `REC` is held (R131): the decoded values, the name, the commit; or the
entry to Error. InvalidEncoding comes before UnknownRecordType (R160). -/
def finishRecord (s : State) (rt : Byte) (d : Decoded) (pos' : Nat) : Host.Outcome State Fault Refusal :=
  match d with
  | .outside => .refused .recordOutsideContract
  | .err k => .next (s.raise k)
  | .ok values =>
    match s.nameOf rt with
    | none => .next (s.raise .unknownRecordType)
    | some name => .next (s.commit rt name values pos')

/-- One record step whose header has been fetched and whose row has selected the element operation `f`: the
whole of SQ.STEP (R131) from RF's tag check on. It is enabled only in Reading (R130); in Done and Error
nothing changes (R137). -/
def recordStep (f : Chunk → Element) (h : Header) (s : State) : Host.Outcome State Fault Refusal :=
  if s.st ≠ .reading then .next s
  else if s.n < s.pos then .fault .cursorBeyondSource
  else
    match rfFrame s h with
    | .error k => .next (s.raise k)
    | .ok (r, pos') => finishRecord (s.hold r) r.recordType (decodeChunks f r.payload) pos'

end Sys2Proof.Machine
end

