-- ==== Sys2Proof/Machine/FieldDecoder.lean ====
section
/-! DEFINITION. FieldDecoder (spec/41_field_decoder.md): the seven rows that a header's `dataType` byte selects. Executing
one is the record step with that row's element operation. -/

namespace Sys2Proof.Machine

/-- FD.NODATA (R91): the empty sequence. -/
def execFdNodata (length : BitVec 16) (recordType : Byte) (s : State) : Host.Outcome State Fault Refusal :=
  recordStep elementNodata ⟨length, recordType, Config.tagCode .noData⟩ s

/-- FD.BITARRAY (R92): the payload is framed and ignored, the result the empty sequence. -/
def execFdBitarray (length : BitVec 16) (recordType : Byte) (s : State) : Host.Outcome State Fault Refusal :=
  recordStep elementBitarray ⟨length, recordType, Config.tagCode .bitArray⟩ s

/-- FD.INT16 (R93): each 2-byte chunk a signed big-endian integer. -/
def execFdInt16 (length : BitVec 16) (recordType : Byte) (s : State) : Host.Outcome State Fault Refusal :=
  recordStep elementInt16 ⟨length, recordType, Config.tagCode .int16⟩ s

/-- FD.INT32 (R94): each 4-byte chunk a signed big-endian integer. -/
def execFdInt32 (length : BitVec 16) (recordType : Byte) (s : State) : Host.Outcome State Fault Refusal :=
  recordStep elementInt32 ⟨length, recordType, Config.tagCode .int32⟩ s

/-- FD.REAL32 (R95): each 4-byte chunk a binary32 pattern, unchanged. -/
def execFdReal32 (length : BitVec 16) (recordType : Byte) (s : State) : Host.Outcome State Fault Refusal :=
  recordStep elementReal32 ⟨length, recordType, Config.tagCode .real32⟩ s

/-- FD.REAL64 (R96): each 8-byte chunk through FC.CONVERT. -/
def execFdReal64 (length : BitVec 16) (recordType : Byte) (s : State) : Host.Outcome State Fault Refusal :=
  recordStep elementReal64 ⟨length, recordType, Config.tagCode .real64⟩ s

/-- FD.ASCII (R97): each byte a character, InvalidEncoding when bit 7 is set. -/
def execFdAscii (length : BitVec 16) (recordType : Byte) (s : State) : Host.Outcome State Fault Refusal :=
  recordStep elementAscii ⟨length, recordType, Config.tagCode .ascii⟩ s

/-! ### FD used alone -/

/-- The signal-level outputs for one element (R19, R101, R102): the value's kind and bus packing, or the error
code, or nothing. -/
def Element.out : Element → ElementOut
  | .emit v => ⟨true, v.kindCode, v.bus, 0⟩
  | .err k => ⟨false, DecodedValue.none.kindCode, DecodedValue.none.bus, k.code⟩
  | .nothing => ⟨false, DecodedValue.none.kindCode, DecodedValue.none.bus, 0⟩
  | .outside => ⟨false, DecodedValue.none.kindCode, DecodedValue.none.bus, 0⟩

/-- What the element datapath makes of `fd_tag_i` and `fd_chunk_i` (R19). -/
def elementOfBus (tag : Byte) (chunk : BitVec 64) : Element :=
  match tagOfCode tag with
  | none => .err .unsupportedDataType
  | some t => elementOf t (chunkOfBus (Config.width t) chunk)

/-- The FD element datapath (R19): a function of its two inputs. -/
def elementDatapath (tag : Byte) (chunk : BitVec 64) : ElementOut := (elementOfBus tag chunk).out

/-- FD's `decode` for the host, on any Record (R90, R100): an unknown tag is UnsupportedDataType; otherwise a
Record that breaks the invariant of R11 is outside the contract (U9). -/
def fdAlone (r : Record) : Decoded :=
  match tagOfCode r.dataType with
  | none => .err .unsupportedDataType
  | some t => if r.wfFor t then decodeChunks (elementOf t) r.payload else .outside

/-- Answer a decode call. -/
def answerDecoded (s : State) (d : Decoded) : Host.Outcome State Fault Refusal :=
  match d with
  | .ok vs => .next (s.answer (.values vs))
  | .err k => .next (s.answer (.error k))
  | .outside => .refused .recordOutsideContract

/-- Serve FD's `decode` on the host's own record. -/
def serveDecode (r : Record) (s : State) : Host.Outcome State Fault Refusal := answerDecoded s (fdAlone r)

/-- Serve FD's `decode` on `REC`, which FD consumes and which is then discarded (R11). In Done and Error no state
changes (R137) and no record is under decode (R161), so the call is taken off. -/
def serveDecodeLatch (s : State) : Host.Outcome State Fault Refusal :=
  if s.st ≠ .reading then .next s.dismiss
  else answerDecoded { s with latch := Record.blank } (fdAlone s.latch)

/-- Serve the element datapath. -/
def serveElement (tag : Byte) (chunk : BitVec 64) (s : State) : Host.Outcome State Fault Refusal :=
  .next (s.answer (.element (elementDatapath tag chunk)))

end Sys2Proof.Machine
end

