-- ==== Sys2Proof/Machine/Sequencer.lean ====
section
/-! DEFINITION. The Driver, the sequencer (spec/43_sequencer.md): SQ.STEP in full, its name on a terminator record, and the
fetch of the row that a header selects. -/

namespace Sys2Proof.Machine

/-- SQ.STEP (R131), as its pseudocode stands: nothing when not in Reading; MissingTerminator when no byte is
left (R132); RF.READ; FD.decode; the name lookup; the commit; any raise enters Error (R136). -/
def execSqStep (s : State) : Host.Outcome State Fault Refusal :=
  if s.st ≠ .reading then .next s
  else if s.n < s.pos then .fault .cursorBeyondSource
  else if s.n - s.pos = 0 then .next (s.raise .missingTerminator)
  else
    match rfRead s with
    | .error k => .next (s.raise k)
    | .ok (r, pos') => finishRecord (s.hold r) r.recordType (fdDecode r) pos'

/-- SQ.TERM (R61, R135): the step on a record of type 0x04, with the FD operation of the record's own tag.
Its commit ends the run. -/
def execSqTerm (length : BitVec 16) (tag : DataType) (s : State) : Host.Outcome State Fault Refusal :=
  recordStep (elementOf tag) ⟨length, Config.term, Config.tagCode tag⟩ s

/-- The operation the sequencer runs next: the row that the header at the cursor selects. With no header there
(the end of the source, or one to three bytes) or with an illegal tag no row of the seven matches, and what
runs is SQ.STEP itself, which applies to every header and reports the error (R131, R132, R111, R113). -/
def State.fetch (s : State) : Instr :=
  match s.header with
  | none => .sqStep
  | some h =>
    match decodeHeader h with
    | .ok i => i
    | .error _ => .sqStep

end Sys2Proof.Machine
end

