-- ==== Sys2Proof/Machine/Dispatch.lean ====
section
/-! DEFINITION. One arm per constructor of Instr. -/

namespace Sys2Proof.Machine

/-- The effect of one operation. -/
def exec (i : Instr) (s : State) : Host.Outcome State Fault Refusal :=
  match i with
  | .fdNodata length rt => Sys2Proof.Machine.execFdNodata length rt s
  | .fdBitarray length rt => Sys2Proof.Machine.execFdBitarray length rt s
  | .fdInt16 length rt => Sys2Proof.Machine.execFdInt16 length rt s
  | .fdInt32 length rt => Sys2Proof.Machine.execFdInt32 length rt s
  | .fdReal32 length rt => Sys2Proof.Machine.execFdReal32 length rt s
  | .fdReal64 length rt => Sys2Proof.Machine.execFdReal64 length rt s
  | .fdAscii length rt => Sys2Proof.Machine.execFdAscii length rt s
  | .fcConvert sign exponent mantissa => Sys2Proof.Machine.execFcConvert sign exponent mantissa s
  | .rfRead => Sys2Proof.Machine.execRfRead s
  | .sqStep => Sys2Proof.Machine.execSqStep s
  | .sqTerm length tag => Sys2Proof.Machine.execSqTerm length tag s

end Sys2Proof.Machine
end

