-- ==== Sys2Proof/Machine/Step.lean ====
section
/-! DEFINITION. One step: the host's pending call if there is one, else the sequencer's next operation. -/

namespace Sys2Proof.Machine

/-- Serve a pending call (log entry 3). FC.CONVERT and RF.READ are operations of the table; reset, the element
datapath and FD used alone are not. -/
def serve (c : Call) (s : State) : Host.Outcome State Fault Refusal :=
  match c with
  | .reset => .next s.applyReset
  | .convert chunk => exec (decodeCf64 chunk) s
  | .element tag chunk => serveElement tag chunk s
  | .decode r => serveDecode r s
  | .decodeLatch => serveDecodeLatch s
  | .readRecord => exec .rfRead s

/-- One step of the machine: one whole record, or one call (R20, R131). -/
def step (s : State) : Host.Outcome State Fault Refusal :=
  match s.call with
  | some c => serve c s
  | none => exec s.fetch s

/-- Store the word `w` of `nbits` bits where the next step fetches it: a header at the cursor, with the source
at least long enough to hold it and the sequencer reading; a CF64 chunk as the pending `convert` call. -/
def State.withFetchWord (s : State) (nbits w : Nat) : State :=
  match formatOfBits nbits with
  | none => s
  | some .cf64 => { s with call := some (.convert (BitVec.ofNat 64 (w % 2 ^ nbits))) }
  | some .record =>
    { s with
      src := Mem.setBytes s.src s.pos (wordBytes .record (w % 2 ^ nbits))
      n := max s.n (s.pos + Config.hdrBytes)
      st := .reading
      call := none }

end Sys2Proof.Machine
end

