-- ==== Sys2Proof/Machine/Assembler.lean ====
section
/-! DEFINITION. The spec's own textual form of a stream (spec/30_encoding.md R60, R61), as abstract lines and the bytes they
assemble to. It is no part of the hardware, which has no write path (R2): it says which bytes a record line
means. -/

namespace Sys2Proof.Machine

/-- The elements of a `REC` line, by its `<DT>` (R60). Integers and floats are patterns of their width; an
ASCII element is a character U+0000 to U+007F. -/
inductive Elements where
  | nodata
  | bitarray (bytes : List Byte)
  | int16 (vs : List (BitVec 16))
  | int32 (vs : List (BitVec 32))
  | real32 (vs : List (BitVec 32))
  | real64 (vs : List (BitVec 64))
  | ascii (cs : List (BitVec 7))
  deriving DecidableEq, Repr

/-- One line: a record, the pseudo-form `ENDLIB`, or raw bytes (R60, R61). -/
inductive Line where
  | record (rt : Byte) (es : Elements)
  | endlib
  | raw (bytes : List Byte)
  deriving DecidableEq, Repr

/-- The tag of a line's `<DT>`. -/
def Elements.tag : Elements → DataType
  | .nodata => .noData
  | .bitarray _ => .bitArray
  | .int16 _ => .int16
  | .int32 _ => .int32
  | .real32 _ => .real32
  | .real64 _ => .real64
  | .ascii _ => .ascii

/-- Each element big-endian in its width, in order (R60). -/
def Elements.chunks : Elements → List Chunk
  | .nodata => []
  | .bitarray bytes => bytes.map fun b => [b]
  | .int16 vs => vs.map bytes16
  | .int32 vs => vs.map bytes32
  | .real32 vs => vs.map bytes32
  | .real64 vs => vs.map bytes64
  | .ascii cs => cs.map fun c => [c.zeroExtend 8]

/-- What FD makes of the elements (R91 to R97). -/
def Elements.values : Elements → List DecodedValue
  | .nodata => []
  | .bitarray _ => []
  | .int16 vs => vs.map .int16
  | .int32 vs => vs.map .int32
  | .real32 vs => vs.map .float32
  | .real64 vs => vs.map fun c => .float64 (convertPattern c)
  | .ascii cs => cs.map fun c => .character (c.zeroExtend 8)

/-- `length = 4 + n × WIDTH` (R60). -/
def Elements.recordLength (es : Elements) : Nat :=
  Config.hdrBytes + es.chunks.length * Config.width es.tag

/-- The bytes of a `REC` line; refused when the length would pass 32767 (R60). -/
def assembleRecord (rt : Byte) (es : Elements) : Option (List Byte) :=
  if es.recordLength ≤ 32767 then
    some (Header.bytes ⟨BitVec.ofNat 16 es.recordLength, rt, Config.tagCode es.tag⟩ ++ es.chunks.flatten)
  else none

/-- The bytes of a line (R60, R61). -/
def assembleLine : Line → Option (List Byte)
  | .record rt es => assembleRecord rt es
  | .endlib => assembleRecord Config.term .nodata
  | .raw bytes => some bytes

/-- The bytes of a stream: its lines back to back, with no gap (R50). -/
def assemble : List Line → Option (List Byte)
  | [] => some []
  | l :: ls =>
    match assembleLine l, assemble ls with
    | some b, some bs => some (b ++ bs)
    | _, _ => none

end Sys2Proof.Machine
end

