-- ==== Sys2Proof/Safety.lean ====
section
/-! DEFINITION. What holds of every state the FDU can be in, in the terms statements use: the invariant of a run and the
notion of a step that completes. -/

namespace Sys2Proof.Machine

/-- The source is in canonical form and names no offset at or beyond `N` (R30). -/
def State.srcOk (s : State) : Bool := Mem.wf s.src && s.src.all fun c => decide (c.1 < s.n)

/-- `pos <= N` (R12). -/
def State.posOk (s : State) : Bool := decide (s.pos ≤ s.n)

/-- `ERR` names an error exactly in Error, and then it is the failing record's start, which the cursor still
holds, and the number of records decoded (R15, R161). -/
def State.errOk (s : State) : Bool :=
  match s.err with
  | none => decide (s.st ≠ .error)
  | some e => decide (s.st = .error) && decide (e.pos = s.pos) && decide (e.idx = s.out.length)

/-- Every value in `OUT` is legal: none of kind `none`, every character in `0x00..0x7F` (R102). -/
def State.outOk (s : State) : Bool := s.out.all fun p => p.2.all DecodedValue.legal

/-- The record in `REC` meets the invariant of R11. -/
def State.latchOk (s : State) : Bool := s.latch.wf

/-- A run is over in Done only after the terminator's pair has been appended (R134, R135). -/
def State.doneOk (s : State) : Bool := decide (s.st = .done → s.out ≠ [])

/-- Every successful step moves the cursor by at least the four header bytes (R117). -/
def State.progressOk (s : State) : Bool := decide (Config.hdrBytes * s.out.length ≤ s.pos)

/-- The invariant of the machine. -/
def State.Inv (s : State) : Prop :=
  s.srcOk = true ∧ s.posOk = true ∧ s.errOk = true ∧ s.outOk = true ∧ s.latchOk = true ∧
  s.doneOk = true ∧ s.progressOk = true

/-- The outcome is a next state, neither a fault nor a refusal. -/
def Completes (o : Host.Outcome State Fault Refusal) : Prop := ∃ t, o = .next t

/-- The next state of an outcome, if it has one. -/
def nextOf : Host.Outcome State Fault Refusal → Option State
  | .next t => some t
  | .fault _ => none
  | .refused _ => none

/-- A call whose answer the spec gives: not FD on a record of the host that lies outside its contract (R90, U9).
The record in `REC` never does, by the invariant. -/
def State.callOk (s : State) : Prop :=
  match s.call with
  | some (.decode r) => tagOfCode r.dataType = none ∨ r.wf = true
  | _ => True

/-- The parameters of the run are the same in both states: `SRC`, `N`, `NAME_TABLE` (R182, R183). -/
def sameRun (s t : State) : Prop := t.src = s.src ∧ t.n = s.n ∧ t.names = s.names

/-! ### What the source holds at the cursor, read off its bytes

Statements say with these what a record decodes to and which error a step reports, offset by offset, apart from
the way RF cuts chunks and FD walks them. -/

/-- The big-endian 16-bit quantity at offset `a` (R33). -/
def State.word16 (s : State) (a : Nat) : BitVec 16 := s.byte a ++ s.byte (a + 1)

/-- The big-endian 32-bit quantity at offset `a` (R33). -/
def State.word32 (s : State) (a : Nat) : BitVec 32 := s.word16 a ++ s.word16 (a + 2)

/-- The big-endian 64-bit quantity at offset `a` (R33). -/
def State.word64 (s : State) (a : Nat) : BitVec 64 := s.word32 a ++ s.word32 (a + 4)

/-- The values of a legal record of tag `t` at the cursor: one per chunk, in stream order (R91 to R97). -/
def fieldValues (s : State) (t : DataType) (length : BitVec 16) : List DecodedValue :=
  let a := s.pos + 4
  let k := length.toNat - 4
  match t with
  | .noData => []
  | .bitArray => []
  | .int16 => (List.range (k / 2)).map fun i => .int16 (s.word16 (a + 2 * i))
  | .int32 => (List.range (k / 4)).map fun i => .int32 (s.word32 (a + 4 * i))
  | .real32 => (List.range (k / 4)).map fun i => .float32 (s.word32 (a + 4 * i))
  | .real64 => (List.range (k / 8)).map fun i => .float64 (convertPattern (s.word64 (a + 8 * i)))
  | .ascii => (List.range k).map fun i => .character (s.byte (a + i))

/-- The record that stands at the cursor, with these header fields: chunk `i`, byte `j` is the source's byte at
record offset `4 + i*W + j` (R54, R116). -/
def recordAt (s : State) (t : DataType) (length : BitVec 16) (rt : Byte) : Record where
  length := length
  recordType := rt
  dataType := Config.tagCode t
  payload :=
    let w := Config.width t
    (List.range (if w = 0 then 0 else (length.toNat - 4) / w)).map fun i =>
      (List.range w).map fun j => s.byte (s.pos + 4 + i * w + j)

/-- A record of tag `t` can be read at the cursor: the sequencer is reading, the length is legal for the tag and
the whole record lies in the source (R114, R115, R130). -/
def State.fits (s : State) (t : DataType) (length : BitVec 16) : Prop :=
  s.st = .reading ∧ legalLength t length = true ∧ s.pos + length.toNat ≤ s.n

/-- FD accepts the record: in an ASCII payload no byte has bit 7 set (R97); every other payload is accepted
(R166). -/
def State.clean (s : State) (t : DataType) (length : BitVec 16) : Prop :=
  t = .ascii → ∀ i < length.toNat - 4, (s.byte (s.pos + 4 + i)).getLsbD 7 = false

/-- The header at the cursor is there and has these fields (R51). -/
def State.headerIs (s : State) (length : BitVec 16) (rt dt : Byte) : Prop :=
  s.pos + 4 ≤ s.n ∧ s.word16 s.pos = length ∧ s.byte (s.pos + 2) = rt ∧ s.byte (s.pos + 3) = dt

/-- The state after a record of type `rt` with values `vs` has been committed (R134, R135). -/
def committed (s : State) (rt : Byte) (name : String) (vs : List DecodedValue) (length : BitVec 16) : State :=
  { s with
    out := s.out ++ [(name, vs)]
    pos := s.pos + length.toNat
    latch := Record.blank
    st := if rt = 0x04 then .done else .reading }

/-- The state after the entry to Error (R161; D13, D14). -/
def errored (s : State) (k : ErrKind) : State :=
  { s with st := .error, err := some ⟨k, s.pos, s.out.length⟩, latch := Record.blank }

/-- The element width of a `dataType` byte below 7 (R53). -/
def widthOfCode (dt : Byte) : Nat := [0, 1, 2, 4, 4, 8, 1].getD dt.toNat 0

/-- The tag of a `dataType` byte below 7 (R53). -/
def tagAt (dt : Byte) : DataType := DataType.all.getD dt.toNat .noData

/-- The magnitude of a normal binary64 pattern, scaled by `2^364` to a natural number for the exponents of
R79 (R62): `(2^52 + f) * 2^(biased - 711)`. -/
def fcScaledResult (r : BitVec 64) : Nat :=
  (2 ^ 52 + (r.extractLsb' 0 52).toNat) * 2 ^ ((r.extractLsb' 52 11).toNat - 711)

/-- The magnitude of the exact value `u(M) * 2^(4E - 312)`, scaled by `2^364` (R75). -/
def fcScaledExact (e : BitVec 7) (m : BitVec 56) : Nat := m.toNat * 2 ^ (4 * e.toNat + 52)

/-- The one error a step in Reading reports, the first met in the order of R160; none when the step succeeds. -/
def firstFailure (s : State) : Option ErrKind :=
  let length := s.word16 s.pos
  let rt := s.byte (s.pos + 2)
  let dt := s.byte (s.pos + 3)
  if s.pos = s.n then some .missingTerminator
  else if s.n < s.pos + 4 then some .malformedHeader
  else if 7 ≤ dt.toNat then some .unsupportedDataType
  else if length.toInt < 4 ∨ ¬ ((widthOfCode dt : Int) ∣ length.toInt - 4) then some .corruptRecordLength
  else if s.n < s.pos + length.toNat then some .truncatedPayload
  else if dt = 0x06 ∧ ∃ i, i < length.toNat - 4 ∧ 0x80 ≤ (s.byte (s.pos + 4 + i)).toNat then some .invalidEncoding
  else if s.nameOf rt = none then some .unknownRecordType
  else none

end Sys2Proof.Machine
end

