-- ==== Sys2Proof/Certificates/Slice0/Obligations.lean ====
section
/-! DEFINITION. The statements for the provers. Each docstring names the rules of spec/ it formalises; where one rests on a
choice of the model, it names the log entry. Where a statement says `errored`, the form of the entry is R161's, with
the spec's own decisions D13 (`REC` dropped) and D14 (what `ERR` records). The blank record that `committed` and
`errored` leave in `REC` once it is discarded or dropped is log entry 4. -/

open Sys2Proof Sys2Proof.Machine

/-! ### Encodings -/

/-- R51, R53, R56: every well-formed operation that has a word of its own is what its bytes decode to, with
every operand, whatever stands behind them. RF.READ and SQ.STEP have mask 0 and no word of their own. -/
def Obligations.DecodeOfEncode : Prop :=
  ∀ (i : Instr) (rest : List Byte), i.wf = true → i ≠ .rfRead → i ≠ .sqStep →
    decode i.format (encode i ++ rest) = .ok (i, rest)

/-- R51, R52, R56: what decodes is exactly the encoding of the operation it decodes to: no bit is dropped. -/
def Obligations.EncodeOfDecode : Prop :=
  ∀ (f : Format) (bytes rest : List Byte) (i : Instr), decode f bytes = .ok (i, rest) →
    i.format = f ∧ bytes = encode i ++ rest

/-- R53, R58, R113: a header whose `dataType` byte is the code of no tag is refused by name. -/
def Obligations.IllegalTagRejected : Prop :=
  ∀ (b0 b1 b2 b3 : Byte) (rest : List Byte), (∀ t, b3 ≠ Config.tagCode t) →
    decode .record (b0 :: b1 :: b2 :: b3 :: rest) = .error (.illegalTag b3)

/-- R51, R56, R61: words written out from the encodings decode to the operations they stand for. -/
def Obligations.SampleWordsDecode : Prop :=
  decode .record [0x00, 0x06, 0x00, 0x02] = .ok (.fdInt16 6 0x00, []) ∧
  decode .record [0x00, 0x0C, 0x10, 0x03] = .ok (.fdInt32 12 0x10, []) ∧
  decode .record [0x00, 0x04, 0x04, 0x00] = .ok (.sqTerm 4 .noData, []) ∧
  decode .record [0xFF, 0xFC, 0x00, 0x02] = .ok (.fdInt16 0xFFFC 0x00, []) ∧
  decode .cf64 [0xC1, 0x10, 0, 0, 0, 0, 0, 0] = .ok (.fcConvert 1 0x41 0x10000000000000, [])

/-! ### FloatConverter -/

/-- R70: FC.CONVERT completes on every input in every state, answers with the pattern of R78 and writes
nothing of the machine's state. That the answer stands in `reply` is the model's choice (log entry 3). -/
def Obligations.FcConvertAnswers : Prop :=
  ∀ (sign : BitVec 1) (e : BitVec 7) (m : BitVec 56) (s : State),
    exec (.fcConvert sign e m) s =
      .next { s with call := none, reply := some (.float64 (convert sign e m)) }

/-- R76: the all-zero input gives `0.0`, an input whose mantissa is zero gives a zero whatever its exponent, and
no other input gives a zero. -/
def Obligations.FcZeroExactlyForZeroMantissa : Prop :=
  convertPattern 0 = 0 ∧
  ∀ (sign : BitVec 1) (e : BitVec 7) (m : BitVec 56), (convert sign e m).extractLsb' 0 63 = 0 ↔ m = 0

/-- R80: the zero of a zero mantissa carries the input's sign bit. The sign of zero for `S = 1` is the spec's
own decision D4. -/
def Obligations.FcSignOfZero : Prop :=
  ∀ (sign : BitVec 1) (e : BitVec 7), convert sign e 0 = sign ++ (0 : BitVec 63)

/-- R79, which the spec derives: a nonzero result has its biased exponent in 711 to 1275, so it is a normal
number, and it has the input's sign. -/
def Obligations.FcResultIsNormal : Prop :=
  ∀ (sign : BitVec 1) (e : BitVec 7) (m : BitVec 56), m ≠ 0 →
    711 ≤ ((convert sign e m).extractLsb' 52 11).toNat ∧
    ((convert sign e m).extractLsb' 52 11).toNat ≤ 1275 ∧
    (convert sign e m).extractLsb' 63 1 = sign

/-- R75, with the spec's own decision D3 on the rounding: the result is the exact value rounded to nearest, ties to
even. It is at most half a unit in the last place of the result away, and at exactly half its last significand bit
is 0. Where the result is a power of two (its fraction is 0) the numbers below it are spaced half as wide, so an
exact value below it is at most a quarter of that unit away; at exactly a quarter it is the tie with the number
below, whose last significand bit is 1. -/
def Obligations.FcRoundsToNearestEven : Prop :=
  ∀ (sign : BitVec 1) (e : BitVec 7) (m : BitVec 56), m ≠ 0 →
    let r := convert sign e m
    let ulp := 2 ^ ((r.extractLsb' 52 11).toNat - 711)
    2 * fcScaledResult r ≤ 2 * fcScaledExact e m + ulp ∧
    2 * fcScaledExact e m ≤ 2 * fcScaledResult r + ulp ∧
    (2 * fcScaledResult r = 2 * fcScaledExact e m + ulp ∨ 2 * fcScaledExact e m = 2 * fcScaledResult r + ulp →
      r.getLsbD 0 = false) ∧
    (r.extractLsb' 0 52 = 0 → 4 * fcScaledResult r ≤ 4 * fcScaledExact e m + ulp)

/-- R75: a mantissa of at most 53 significant bits converts exactly. -/
def Obligations.FcExactUpTo53Bits : Prop :=
  ∀ (sign : BitVec 1) (e : BitVec 7) (m : BitVec 56) (j k : Nat), m ≠ 0 → j < 2 ^ 53 → m.toNat = j * 2 ^ k →
    fcScaledResult (convert sign e m) = fcScaledExact e m

/-- R81, which the spec derives: shifting an unnormalised mantissa up by one hex digit and lowering the exponent by
one gives the same result. -/
def Obligations.FcUnnormalisedInputsAgree : Prop :=
  ∀ (sign : BitVec 1) (e : BitVec 7) (m : BitVec 56), 0 < e.toNat → m.toNat < 2 ^ 52 →
    convert sign (e - 1) (m <<< 4) = convert sign e m

/-! ### FieldDecoder: the result of each row, with everything it leaves unchanged -/

/-- FD.NODATA commits the empty sequence of R91. That executing the row is the whole record step, with the row's
operands in the place of the header at the cursor (log entry 14), and R134 gives the commit. -/
def Obligations.NoDataRecordResult : Prop :=
  ∀ (s : State) (length : BitVec 16) (rt : Byte) (name : String), s.fits .noData length → s.nameOf rt = some name →
    length = 4 ∧ exec (.fdNodata length rt) s = .next (committed s rt name [] length)

/-- FD.BITARRAY commits the empty sequence of R92, whatever the payload's bytes are. That executing the row is the
whole record step, with the row's operands in the place of the header at the cursor (log entry 14), and R134 gives
the commit. -/
def Obligations.BitArrayRecordResult : Prop :=
  ∀ (s : State) (length : BitVec 16) (rt : Byte) (name : String), s.fits .bitArray length → s.nameOf rt = some name →
    exec (.fdBitarray length rt) s = .next (committed s rt name [] length)

/-- FD.INT16 commits the signed 16-bit big-endian integers of R93, one per 2-byte chunk, in order. That executing
the row is the whole record step, with the row's operands in the place of the header at the cursor (log entry 14),
and R134 gives the commit. -/
def Obligations.Int16RecordResult : Prop :=
  ∀ (s : State) (length : BitVec 16) (rt : Byte) (name : String), s.fits .int16 length → s.nameOf rt = some name →
    exec (.fdInt16 length rt) s = .next (committed s rt name
      ((List.range ((length.toNat - 4) / 2)).map fun i => .int16 (s.word16 (s.pos + 4 + 2 * i))) length)

/-- FD.INT32 commits the signed 32-bit big-endian integers of R94, one per 4-byte chunk, in order. That executing
the row is the whole record step, with the row's operands in the place of the header at the cursor (log entry 14),
and R134 gives the commit. -/
def Obligations.Int32RecordResult : Prop :=
  ∀ (s : State) (length : BitVec 16) (rt : Byte) (name : String), s.fits .int32 length → s.nameOf rt = some name →
    exec (.fdInt32 length rt) s = .next (committed s rt name
      ((List.range ((length.toNat - 4) / 4)).map fun i => .int32 (s.word32 (s.pos + 4 + 4 * i))) length)

/-- FD.REAL32 commits each 4-byte chunk as the binary32 pattern of R95, bit for bit (the spec's own decision D7).
That executing the row is the whole record step, with the row's operands in the place of the header at the cursor
(log entry 14), and R134 gives the commit. -/
def Obligations.Real32RecordResult : Prop :=
  ∀ (s : State) (length : BitVec 16) (rt : Byte) (name : String), s.fits .real32 length → s.nameOf rt = some name →
    exec (.fdReal32 length rt) s = .next (committed s rt name
      ((List.range ((length.toNat - 4) / 4)).map fun i => .float32 (s.word32 (s.pos + 4 + 4 * i))) length)

/-- FD.REAL64 commits FC.CONVERT of each 8-byte chunk, as R96 gives it. That executing the row is the whole record
step, with the row's operands in the place of the header at the cursor (log entry 14), and R134 gives the commit. -/
def Obligations.Real64RecordResult : Prop :=
  ∀ (s : State) (length : BitVec 16) (rt : Byte) (name : String), s.fits .real64 length → s.nameOf rt = some name →
    exec (.fdReal64 length rt) s = .next (committed s rt name
      ((List.range ((length.toNat - 4) / 8)).map fun i =>
        .float64 (convertPattern (s.word64 (s.pos + 4 + 8 * i)))) length)

/-- FD.ASCII commits the characters of R97, one per byte, when every byte is below 0x80 (the spec's own decision
D8). That executing the row is the whole record step, with the row's operands in the place of the header at the
cursor (log entry 14), and R134 gives the commit. -/
def Obligations.AsciiRecordResult : Prop :=
  ∀ (s : State) (length : BitVec 16) (rt : Byte) (name : String), s.fits .ascii length → s.nameOf rt = some name →
    (∀ i < length.toNat - 4, (s.byte (s.pos + 4 + i)).toNat < 0x80) →
    exec (.fdAscii length rt) s = .next (committed s rt name
      ((List.range (length.toNat - 4)).map fun i => .character (s.byte (s.pos + 4 + i))) length)

/-- R97, R99, R161, with the spec's own decisions D8 and D13: one payload byte of 0x80 or more in an ASCII record
fails the whole record with InvalidEncoding. That it does so whether or not its type has a name is the spec's own
order D11. That executing the row is the whole record step, with the row's operands in the place of the header at
the cursor (log entry 14). -/
def Obligations.AsciiHighByteFails : Prop :=
  ∀ (s : State) (length : BitVec 16) (rt : Byte) (i : Nat), s.fits .ascii length → i < length.toNat - 4 →
    0x80 ≤ (s.byte (s.pos + 4 + i)).toNat →
    exec (.fdAscii length rt) s = .next (errored s .invalidEncoding)

/-- R91 to R94 and R96, what FD makes of a record by its tag and its payload alone: nothing for NoData and BitArray
whatever the payload, one signed big-endian integer per chunk for Int16 and Int32, and FC.CONVERT of each chunk for
Real64Custom, in the order of the chunks. -/
def Obligations.FdDecodesByTag : Prop :=
  ∀ r : Record,
    (r.dataType = Config.tagCode .noData → fdDecode r = .ok []) ∧
    (r.dataType = Config.tagCode .bitArray → fdDecode r = .ok []) ∧
    (∀ ps : List (Byte × Byte), r.dataType = Config.tagCode .int16 → r.payload = ps.map (fun p => [p.1, p.2]) →
      fdDecode r = .ok (ps.map fun p => .int16 (p.1 ++ p.2))) ∧
    (∀ ps : List (Byte × Byte × Byte × Byte), r.dataType = Config.tagCode .int32 →
      r.payload = ps.map (fun p => [p.1, p.2.1, p.2.2.1, p.2.2.2]) →
      fdDecode r = .ok (ps.map fun p => .int32 (p.1 ++ p.2.1 ++ p.2.2.1 ++ p.2.2.2))) ∧
    (∀ cs : List (BitVec 64), r.dataType = Config.tagCode .real64 →
      r.payload = cs.map (fun c => (List.range 8).map fun i => c.extractLsb' (56 - 8 * i) 8) →
      fdDecode r = .ok (cs.map fun c => .float64 (convertPattern c)))

/-- R103: each chunk of Int16 and Int32 decodes to the integer that its bytes denote in big-endian two's
complement, and each chunk of Real32 to the binary32 pattern of its bytes. -/
def Obligations.ChunksMatchStandardInterpretation : Prop :=
  (∀ b0 b1 : Byte, ∃ v, elementInt16 [b0, b1] = .emit v ∧ v.toInt? =
    some ((b0.toNat * 256 + b1.toNat : Int) - if 0x80 ≤ b0.toNat then 65536 else 0)) ∧
  (∀ b0 b1 b2 b3 : Byte, ∃ v, elementInt32 [b0, b1, b2, b3] = .emit v ∧ v.toInt? =
    some ((((b0.toNat * 256 + b1.toNat) * 256 + b2.toNat) * 256 + b3.toNat : Int) -
      if 0x80 ≤ b0.toNat then 4294967296 else 0)) ∧
  (∀ b0 b1 b2 b3 : Byte, ∃ p : BitVec 32, elementReal32 [b0, b1, b2, b3] = .emit (.float32 p) ∧
    p.toNat = ((b0.toNat * 256 + b1.toNat) * 256 + b2.toNat) * 256 + b3.toNat)

/-- R98: NoData and BitArray give no value; for the other tags the result has one value per chunk, in order,
each made of its own chunk and the tag alone. -/
def Obligations.DecodingIsElementWise : Prop :=
  (∀ cs, decodeChunks (elementOf .noData) cs = .ok [] ∧ decodeChunks (elementOf .bitArray) cs = .ok []) ∧
  ∀ (t : DataType) (cs : List Chunk) (vs : List DecodedValue), t ≠ .noData → t ≠ .bitArray →
    decodeChunks (elementOf t) cs = .ok vs →
    vs.length = cs.length ∧
    ∀ (i : Nat) (c : Chunk), cs[i]? = some c → ∃ v, vs[i]? = some v ∧ elementOf t c = .emit v

/-- R100, the spec's own decision D9 (where the answer stands is log entry 3): FD used alone answers
UnsupportedDataType for a tag outside the seven, whatever the payload is. -/
def Obligations.FdAloneRejectsUnknownTag : Prop :=
  ∀ (s : State) (r : Record), s.call = some (.decode r) → 7 ≤ r.dataType.toNat →
    step s = .next { s with call := none, reply := some (.error .unsupportedDataType) }

/-- R19, R101, R102, the spec's own packing (D5, D6): the element datapath's outputs for every tag and every chunk.
That kind and value are 0 beside an error is the model's reading (log entry 16). -/
def Obligations.ElementDatapathOutputs : Prop :=
  ∀ c : BitVec 64,
    elementDatapath 0x00 c = ⟨false, 0, 0, 0⟩ ∧
    elementDatapath 0x01 c = ⟨false, 0, 0, 0⟩ ∧
    elementDatapath 0x02 c = ⟨true, 1, (c.extractLsb' 48 16).signExtend 64, 0⟩ ∧
    elementDatapath 0x03 c = ⟨true, 2, (c.extractLsb' 32 32).signExtend 64, 0⟩ ∧
    elementDatapath 0x04 c = ⟨true, 3, (c.extractLsb' 32 32).zeroExtend 64, 0⟩ ∧
    elementDatapath 0x05 c = ⟨true, 4, convertPattern c, 0⟩ ∧
    elementDatapath 0x06 c =
      (if c.getLsbD 63 then ⟨false, 0, 0, 5⟩ else ⟨true, 5, (c.extractLsb' 56 8).zeroExtend 64, 0⟩) ∧
    ∀ dt : Byte, 7 ≤ dt.toNat → elementDatapath dt c = ⟨false, 0, 0, 2⟩

/-! ### RecordDecoder -/

/-- R110, R116, R117: in Reading, RF.READ on a record that lies whole in the source answers with the record and the
cursor behind it, and puts the record into `REC`. It does not move the cursor. That the answer stands in `reply` is
the model's choice (log entry 3). What it does outside Reading is said by DoneAndErrorAreAbsorbing. -/
def Obligations.RfReadResult : Prop :=
  ∀ (s : State) (t : DataType) (length : BitVec 16) (rt : Byte),
    s.st = .reading → s.headerIs length rt (Config.tagCode t) → legalLength t length = true →
    s.pos + length.toNat ≤ s.n →
    exec .rfRead s =
      .next
        { s with
          latch := recordAt s t length rt, call := none
          reply := some (.record (recordAt s t length rt) (s.pos + length.toNat)) }

/-- R111, R113, R114, R115, R119, R120, with the spec's own decisions D10 and D11 and the model's choice of where
the answer stands (log entry 3): in Reading, RF.READ reports the first failure in its order of checks and writes
nothing else; used alone it reports MalformedHeader for zero bytes too. -/
def Obligations.RfReadFailures : Prop :=
  ∀ (s : State), s.st = .reading → s.pos ≤ s.n →
    let failed (k : ErrKind) := Host.Outcome.next { s with call := none, reply := some (.error k) }
    let length := s.word16 s.pos
    let dt := s.byte (s.pos + 3)
    (s.n < s.pos + 4 → exec .rfRead s = failed .malformedHeader) ∧
    (s.pos + 4 ≤ s.n → 7 ≤ dt.toNat → exec .rfRead s = failed .unsupportedDataType) ∧
    (s.pos + 4 ≤ s.n → dt.toNat < 7 → (length.toInt < 4 ∨ ¬ ((widthOfCode dt : Int) ∣ length.toInt - 4)) →
      exec .rfRead s = failed .corruptRecordLength) ∧
    (s.pos + 4 ≤ s.n → dt.toNat < 7 → 4 ≤ length.toInt → (widthOfCode dt : Int) ∣ length.toInt - 4 →
      s.n < s.pos + length.toNat → exec .rfRead s = failed .truncatedPayload)

/-- R117: on success RF's new cursor is the record's start plus its declared length, at least four bytes on and
never past the source; and the record meets the invariant of R11. -/
def Obligations.RfRecordsAreWellFormed : Prop :=
  ∀ (s : State) (r : Record) (p : Nat), rfRead s = .ok (r, p) →
    r.wf = true ∧ r.length = s.word16 s.pos ∧ p = s.pos + r.length.toNat ∧ s.pos + 4 ≤ p ∧ p ≤ s.n

/-- R155, with the spec's own decision D8 on the legal bytes: on a record that RF has framed FD raises
InvalidEncoding exactly for the tag ASCII with a chunk byte of 0x80 or more, and nothing else; nor is such a record
ever outside its contract. -/
def Obligations.FdErrorsBehindRf : Prop :=
  ∀ (s : State) (r : Record) (p : Nat), rfRead s = .ok (r, p) →
    fdDecode r ≠ .outside ∧
    ∀ k, fdDecode r = .err k ↔
      k = .invalidEncoding ∧ r.dataType = Config.tagCode .ascii ∧ ∃ b : Byte, [b] ∈ r.payload ∧ 0x80 ≤ b.toNat

/-- R112: the four bytes at the cursor give the signed big-endian length, the record type and the tag. -/
def Obligations.HeaderFieldsAtCursor : Prop :=
  ∀ s : State, s.pos + 4 ≤ s.n →
    ∃ h, s.header = some h ∧
      h.length.toInt = ((s.byte s.pos).toNat * 256 + (s.byte (s.pos + 1)).toNat : Int) -
        (if 0x80 ≤ (s.byte s.pos).toNat then 65536 else 0) ∧
      h.recordType = s.byte (s.pos + 2) ∧ h.dataType = s.byte (s.pos + 3)

/-! ### The sequencer -/

/-- R134: SQ.STEP on a legal, decodable record with a name appends its pair, moves the cursor by its length, ends
the run if it is the terminator, and changes nothing else; the record in `REC` is discarded (R11), which the model
shows as the blank record (log entry 4). -/
def Obligations.SqStepCommits : Prop :=
  ∀ (s : State) (t : DataType) (length : BitVec 16) (rt : Byte) (name : String),
    s.headerIs length rt (Config.tagCode t) → s.fits t length → s.clean t length → s.nameOf rt = some name →
    exec .sqStep s = .next (committed s rt name (fieldValues s t length) length)

/-- R135, with the spec's own reading D17: SQ.TERM on a legal, decodable terminator record with a name, whatever its
tag, commits it and ends the run in Done. That executing the row is the whole record step, with the row's operands
in the place of the header at the cursor (log entry 14). -/
def Obligations.SqTermEndsTheRun : Prop :=
  ∀ (s : State) (t : DataType) (length : BitVec 16) (name : String),
    s.fits t length → s.clean t length → s.nameOf 0x04 = some name →
    exec (.sqTerm length t) s = .next
      { s with
        out := s.out ++ [(name, fieldValues s t length)], pos := s.pos + length.toNat, latch := Record.blank, st := .done }

/-- R156: a decodable record whose type has no name enters Error with UnknownRecordType, in every row of the header.
That executing the row is the whole record step, with the row's operands in the place of the header at the cursor
(log entry 14). -/
def Obligations.UnknownTypeFails : Prop :=
  ∀ (s : State) (t : DataType) (length : BitVec 16) (rt : Byte), s.fits t length → s.clean t length →
    (s.nameOf rt = none → exec (Instr.ofTag t length rt) s = .next (errored s .unknownRecordType)) ∧
    (s.nameOf 0x04 = none → exec (.sqTerm length t) s = .next (errored s .unknownRecordType))

/-- R114, R153, with the spec's own decision D10 on lengths below 4: a length below 4 or not a whole number of
elements enters Error with CorruptRecordLength, in every row of the header. That executing the row is the whole
record step, with the row's operands in the place of the header at the cursor (log entry 14), even where no header
stands at the cursor. -/
def Obligations.CorruptLengthFails : Prop :=
  ∀ (s : State) (t : DataType) (length : BitVec 16) (rt : Byte), s.st = .reading → s.pos ≤ s.n →
    (length.toInt < 4 ∨ ¬ ((Config.width t : Int) ∣ length.toInt - 4)) →
    exec (Instr.ofTag t length rt) s = .next (errored s .corruptRecordLength) ∧
    exec (.sqTerm length t) s = .next (errored s .corruptRecordLength)

/-- R154: a legal length that runs past the source enters Error with TruncatedPayload, in every row of the header.
That executing the row is the whole record step, with the row's operands in the place of the header at the cursor
(log entry 14), even where no header stands at the cursor. -/
def Obligations.TruncatedPayloadFails : Prop :=
  ∀ (s : State) (t : DataType) (length : BitVec 16) (rt : Byte), s.st = .reading → s.pos ≤ s.n →
    legalLength t length = true → s.n < s.pos + length.toNat →
    exec (Instr.ofTag t length rt) s = .next (errored s .truncatedPayload) ∧
    exec (.sqTerm length t) s = .next (errored s .truncatedPayload)

/-- R157: zero bytes left at a record boundary is MissingTerminator. -/
def Obligations.EndOfSourceIsMissingTerminator : Prop :=
  ∀ (s : State), s.call = none → s.st = .reading → s.pos = s.n →
    step s = .next (errored s .missingTerminator)

/-- R151: one to three bytes left at a record boundary is MalformedHeader, and the sequencer reports that kind
in no other case. -/
def Obligations.ShortHeaderIsMalformed : Prop :=
  ∀ (s : State), s.call = none → s.st = .reading →
    (s.pos < s.n → s.n < s.pos + 4 → step s = .next (errored s .malformedHeader)) ∧
    (step s = .next (errored s .malformedHeader) → s.pos < s.n ∧ s.n < s.pos + 4)

/-- R113: a header whose `dataType` byte is the code of no tag enters Error with UnsupportedDataType, whatever
its length and its record type. -/
def Obligations.IllegalTagIsUnsupported : Prop :=
  ∀ (s : State), s.call = none → s.st = .reading → s.pos + 4 ≤ s.n → (∀ t, s.byte (s.pos + 3) ≠ Config.tagCode t) →
    step s = .next (errored s .unsupportedDataType)

/-- R130, R137, R162: outside Reading no operation of the sequencer changes anything, RF.READ re-reads no record and
only takes its call off, and no step but the reset command changes any state of the machine: the pending call and
the last answer are the model's own fields (log entry 3). That an operation that is not enabled gives a next state,
and no stop, is the model's reading (log entry 9). -/
def Obligations.DoneAndErrorAreAbsorbing : Prop :=
  ∀ (s : State), s.st ≠ .reading →
    (∀ i : Instr, i.format = .record → i ≠ .rfRead → exec i s = .next s) ∧
    exec .rfRead s = .next { s with call := none } ∧
    (s.call = none → step s = .next s) ∧
    ∀ t : State, s.call ≠ some .reset → step s = .next t → t = { s with call := t.call, reply := t.reply }

/-- What the operations of the stream leave alone: the run's parameters, every byte of the source, the host's
call and the last answer (R2, R134, R161). They leave no record in `REC` (R11; log entry 4) unless they change
nothing at all, and they append at most one pair to `OUT`. -/
def Obligations.StreamRowsFrame : Prop :=
  ∀ (s t : State) (i : Instr), i.format = .record → i ≠ .rfRead → exec i s = .next t →
    sameRun s t ∧ t.call = s.call ∧ t.reply = s.reply ∧ (∀ a, t.byte a = s.byte a) ∧
    (t.latch = Record.blank ∨ t = s) ∧ ∃ tail, t.out = s.out ++ tail ∧ tail.length ≤ 1

/-- R2, R182: no step writes the source, its length or the name table. -/
def Obligations.StepKeepsRunParameters : Prop :=
  ∀ (s t : State), step s = .next t → sameRun s t ∧ ∀ a, t.byte a = s.byte a

/-! ### The machine -/

/-- When the four bytes at the cursor decode to an operation and no call is pending, the step is that
operation, with nothing added around it (log entry 6). -/
def Obligations.StepRunsDecodedInstruction : Prop :=
  ∀ (s : State) (i : Instr), s.call = none → s.pos + 4 ≤ s.n →
    decode .record [s.byte s.pos, s.byte (s.pos + 1), s.byte (s.pos + 2), s.byte (s.pos + 3)] = .ok (i, []) →
    step s = exec i s

/-- R131: dispatching on the row that the header selects is SQ.STEP: with no call pending every step of the
machine is one iteration of the sequencer's loop. -/
def Obligations.StepIsSqStep : Prop :=
  ∀ s : State, s.call = none → step s = exec .sqStep s

/-- R160, the spec's own order D11, with R161 and R134: a step in Reading reports the first failure in the order of
R160, or commits the record. -/
def Obligations.StepReportsFirstFailure : Prop :=
  ∀ s : State, s.call = none → s.st = .reading → s.pos ≤ s.n →
    step s =
      match firstFailure s with
      | some k => .next (errored s k)
      | none =>
        .next (committed s (s.byte (s.pos + 2)) ((s.nameOf (s.byte (s.pos + 2))).getD "")
          (fieldValues s (tagAt (s.byte (s.pos + 3))) (s.word16 s.pos)) (s.word16 s.pos))

/-- R136: a step that enters Error writes `ST` and `ERR` and leaves everything else, the cursor and the output among
it. What it leaves in `REC` is said by StreamRowsFrame. -/
def Obligations.ErrorEntryIsPrecise : Prop :=
  ∀ s t : State, s.call = none → s.st = .reading → step s = .next t → t.st = .error →
    ∃ k : ErrKind, t = { s with st := .error, err := some ⟨k, s.pos, s.out.length⟩, latch := t.latch }

/-- R117, R134: a successful step moves the cursor by the declared length of the record at it, at least four
bytes and never past the source, and appends exactly one pair. -/
def Obligations.SuccessAdvancesByLength : Prop :=
  ∀ s t : State, s.call = none → s.st = .reading → step s = .next t → t.st ≠ .error →
    t.pos = s.pos + (s.word16 s.pos).toNat ∧ s.pos + 4 ≤ t.pos ∧ t.pos ≤ s.n ∧
    ∃ name vs, t.out = s.out ++ [(name, vs)]

/-- R12, R15, R16, R30, R102, R11: the machine's invariant is kept by every step, calls included. That the
source is held in canonical form is the model's choice (log entry 1). -/
def Obligations.StepKeepsInvariant : Prop :=
  ∀ s t : State, s.Inv → step s = .next t → t.Inv

/-- R21: the reset state meets the invariant. What it holds in the source, the name table and `REC` is the model's
choice (log entries 1, 2 and 4). -/
def Obligations.ResetMeetsInvariant : Prop := State.reset.Inv

/-- 43_sequencer.md section 2 gives SQ.STEP a next state on every source, and the rules of the components give one
to every call but FD on a record of the host outside its contract: from a state of the invariant a step always has a
next state. That a step in Done or Error, which R137 does not enable, gives the same state is the model's reading
(log entry 9). -/
def Obligations.StepAlwaysCompletes : Prop :=
  ∀ s : State, s.Inv → s.callOk → Completes (step s)

/-- R21: what reset leaves; all but `ST = Reading` are the spec's own decision D15. -/
def Obligations.ResetStateValues : Prop :=
  State.reset.stCode = 0 ∧ State.reset.pos = 0 ∧ State.reset.out = [] ∧ State.reset.errKind = 0

/-- R180, the spec's own decision D15: the reset command in any state, Done and Error among them. That it leaves
`REC` with the blank record is the model's choice (log entry 4; R21 leaves it unspecified), and so is that the last
answer of a component stays (log entry 3). -/
def Obligations.ResetCommandEffect : Prop :=
  ∀ s : State, s.call = some .reset →
    step s = .next
      { s with st := .reading, pos := 0, out := [], err := none, latch := Record.blank, call := none }

/-- R19, R20, R90, R110: each call of the host runs its component; FD on `REC` in Reading, for once the run is over
no record is under decode (DoneAndErrorAreAbsorbing). How a call is put and where the answer stands is the model's
choice (log entry 3), and so is the blank record that FD leaves in `REC` (log entry 4). -/
def Obligations.CallsRunTheirComponent : Prop :=
  ∀ s : State,
    (∀ sign e m, s.call = some (.convert (sign ++ e ++ m)) → step s = exec (.fcConvert sign e m) s) ∧
    (s.call = some .readRecord → step s = exec .rfRead s) ∧
    (∀ tag c, s.call = some (.element tag c) →
      step s = .next { s with call := none, reply := some (.element (elementDatapath tag c)) }) ∧
    (∀ r vs, s.call = some (.decode r) → r.wf = true → fdDecode r = .ok vs →
      step s = .next { s with call := none, reply := some (.values vs) }) ∧
    (∀ r k, s.call = some (.decode r) → r.wf = true → fdDecode r = .err k →
      step s = .next { s with call := none, reply := some (.error k) }) ∧
    (∀ vs, s.call = some .decodeLatch → s.st = .reading → s.latch.wf = true → fdDecode s.latch = .ok vs →
      step s = .next { s with latch := Record.blank, call := none, reply := some (.values vs) }) ∧
    (∀ k, s.call = some .decodeLatch → s.st = .reading → s.latch.wf = true → fdDecode s.latch = .err k →
      step s = .next { s with latch := Record.blank, call := none, reply := some (.error k) })

/-- R110, R90: the only steps that have no next state are those the spec gives no behaviour: a read with the cursor
beyond the source, and FD on a record of a legal tag that breaks the invariant of R11; no step is refused as not
modelled. That the machine stops there is the model's choice (log entries 7 and 8). -/
def Obligations.StopsOutsideTheContractOnly : Prop :=
  ∀ s : State,
    (step s = .fault .cursorBeyondSource ↔
      s.n < s.pos ∧ s.st = .reading ∧ (s.call = none ∨ s.call = some .readRecord)) ∧
    (step s = .refused .recordOutsideContract ↔
      ∃ r : Record, r.wf = false ∧ (∃ t, r.dataType = Config.tagCode t) ∧
        (s.call = some (.decode r) ∨ (s.call = some .decodeLatch ∧ s.st = .reading ∧ s.latch = r))) ∧
    ∀ m : String, step s ≠ .refused (.notModelled m)

/-- R137, which the spec derives: from every state of the invariant, with no call pending, the run is over after at
most one step per four bytes left and one more. That the steps of the bound left over after the end give the same
state is the model's reading (log entry 9). -/
def Obligations.RunEndsInBoundedSteps : Prop :=
  ∀ s : State, s.Inv → s.call = none →
    ∃ t : State, core.run ((s.n - s.pos) / 4 + 1) s = .next t ∧ t.st ≠ .reading

/-- R35, R16: over any number of steps without a call `OUT` only grows at its end. -/
def Obligations.OutputIsAppendOnly : Prop :=
  ∀ (k : Nat) (s t : State), s.call = none → core.run k s = .next t → ∃ tail, t.out = s.out ++ tail

/-- R139: after a reset the run is a function of the source, its length and the name table: two machines that agree
on these end in the same state, but for the last answer of a component used alone. That this last answer survives
reset and the run is the model's choice (log entry 3), and so is the blank record that reset leaves in `REC` in both
runs, where R21 leaves it unspecified (log entry 4). That the steps left over after the end of a run give the same
state is the model's reading (log entry 9). -/
def Obligations.RunDependsOnParametersOnly : Prop :=
  ∀ (k : Nat) (s s' t : State), sameRun s s' → core.run k s.applyReset = .next t →
    core.run k s'.applyReset = .next { t with reply := s'.reply }

/-- R138, which the spec derives, and R187: a step that succeeds depends on no byte of the source outside the record
it reads: bytes behind it, after the terminator too, and bytes before it can be anything. -/
def Obligations.StepReadsOnlyItsRecord : Prop :=
  ∀ (s t : State) (src' : List Host.Cell), s.call = none → s.st = .reading → step s = .next t → t.st ≠ .error →
    (∀ a, s.pos ≤ a → a < t.pos → Mem.get src' a = s.byte a) →
    step { s with src := src' } = .next { t with src := src' }

/-- R60, the spec's own notation D23, with R91 to R97: the bytes that a record line assembles to decode back to the
line's values, and the cursor ends behind them. The lines are abstract terms with 7-bit ASCII codes, and the text of
the notation is not modelled (log entry 17); that REC is then blank is log entry 4. -/
def Obligations.AssembledRecordDecodes : Prop :=
  ∀ (s : State) (rt : Byte) (es : Elements) (bytes : List Byte) (name : String),
    assembleRecord rt es = some bytes → s.call = none → s.st = .reading → s.nameOf rt = some name →
    s.pos + bytes.length ≤ s.n → (∀ i, i < bytes.length → s.byte (s.pos + i) = bytes.getD i 0) →
    step s = .next
      { s with
        out := s.out ++ [(name, es.values)], pos := s.pos + bytes.length, latch := Record.blank
        st := if rt = 0x04 then .done else .reading }

/-- R150, R159, the codes the spec's own decision D14: the seven error kinds have seven distinct codes, none of them
the code of no error. -/
def Obligations.ErrorKindsStayDistinct : Prop :=
  ∀ s t : State, ∀ e e' : ErrRecord, s.err = some e → t.err = some e' →
    s.errKind ≠ 0 ∧ (s.errKind = t.errKind → e.kind = e'.kind)
end

