-- ==== Sys2Proof/Laws/Decode.lean ====
section
/-! SUPPORT. Bytes and tags: assembling what was taken apart, and what each tag code stands for. -/

namespace Sys2Proof

/-! ### The bits of an assembled quantity -/

theorem getLsbD_be16 (b0 b1 : Byte) (i : Nat) :
    (be16 b0 b1).getLsbD i = if i < 8 then b1.getLsbD i else b0.getLsbD (i - 8) :=
  BitVec.getLsbD_append

theorem getLsbD_be32 (b0 b1 b2 b3 : Byte) (i : Nat) :
    (be32 b0 b1 b2 b3).getLsbD i =
      if i < 16 then (be16 b2 b3).getLsbD i else (be16 b0 b1).getLsbD (i - 16) := by
  rw [getLsbD_be16, getLsbD_be16]
  unfold be32
  simp only [BitVec.getLsbD_append]
  repeat' split
  all_goals first | rfl | omega

theorem getLsbD_be64 (b0 b1 b2 b3 b4 b5 b6 b7 : Byte) (i : Nat) :
    (be64 b0 b1 b2 b3 b4 b5 b6 b7).getLsbD i =
      if i < 32 then (be32 b4 b5 b6 b7).getLsbD i else (be32 b0 b1 b2 b3).getLsbD (i - 32) := by
  simp only [getLsbD_be32, getLsbD_be16]
  unfold be64
  simp only [BitVec.getLsbD_append]
  repeat' split
  all_goals first | rfl | omega

/-- Wider quantities are the narrower ones side by side (R33, R34). -/
theorem be32_eq_append (b0 b1 b2 b3 : Byte) : be32 b0 b1 b2 b3 = be16 b0 b1 ++ be16 b2 b3 := by
  refine BitVec.eq_of_getLsbD_eq fun i _ => ?_
  rw [getLsbD_be32, BitVec.getLsbD_append]

theorem be64_eq_append (b0 b1 b2 b3 b4 b5 b6 b7 : Byte) :
    be64 b0 b1 b2 b3 b4 b5 b6 b7 = be32 b0 b1 b2 b3 ++ be32 b4 b5 b6 b7 := by
  refine BitVec.eq_of_getLsbD_eq fun i _ => ?_
  rw [getLsbD_be64, BitVec.getLsbD_append]

/-! ### Taking a quantity apart and assembling it again -/

theorem bytes16_be16 (b0 b1 : Byte) : bytes16 (be16 b0 b1) = [b0, b1] := by
  simp only [bytes16, List.cons.injEq, and_true]
  refine ⟨?_, ?_⟩ <;>
    (refine BitVec.eq_of_getLsbD_eq fun i hi => ?_
     simp only [BitVec.getLsbD_extractLsb', hi, decide_true, Bool.true_and, getLsbD_be16]
     split <;> first | omega | (congr 1; omega))

theorem bytes32_be32 (b0 b1 b2 b3 : Byte) : bytes32 (be32 b0 b1 b2 b3) = [b0, b1, b2, b3] := by
  simp only [bytes32, List.cons.injEq, and_true]
  refine ⟨?_, ?_, ?_, ?_⟩ <;>
    (refine BitVec.eq_of_getLsbD_eq fun i hi => ?_
     simp only [BitVec.getLsbD_extractLsb', hi, decide_true, Bool.true_and, getLsbD_be32, getLsbD_be16]
     repeat' split
     all_goals first | omega | (congr 1; omega))

theorem bytes64_be64 (b0 b1 b2 b3 b4 b5 b6 b7 : Byte) :
    bytes64 (be64 b0 b1 b2 b3 b4 b5 b6 b7) = [b0, b1, b2, b3, b4, b5, b6, b7] := by
  simp only [bytes64, List.cons.injEq, and_true]
  refine ⟨?_, ?_, ?_, ?_, ?_, ?_, ?_, ?_⟩ <;>
    (refine BitVec.eq_of_getLsbD_eq fun i hi => ?_
     simp only [BitVec.getLsbD_extractLsb', hi, decide_true, Bool.true_and, getLsbD_be64, getLsbD_be32, getLsbD_be16]
     repeat' split
     all_goals first | omega | (congr 1; omega))

theorem be16_extract (v : BitVec 16) : be16 (v.extractLsb' 8 8) (v.extractLsb' 0 8) = v := by
  refine BitVec.eq_of_getLsbD_eq fun i hi => ?_
  simp only [getLsbD_be16, BitVec.getLsbD_extractLsb']
  split
  · next h => simp [h]
  · next h => simp [show i - 8 < 8 by omega, show 8 + (i - 8) = i by omega]

theorem be32_extract (v : BitVec 32) :
    be32 (v.extractLsb' 24 8) (v.extractLsb' 16 8) (v.extractLsb' 8 8) (v.extractLsb' 0 8) = v := by
  refine BitVec.eq_of_getLsbD_eq fun i hi => ?_
  simp only [getLsbD_be32, getLsbD_be16, BitVec.getLsbD_extractLsb']
  repeat' split
  all_goals
    rw [decide_eq_true (by omega), Bool.true_and]
    congr 1
    omega

theorem be64_extract (v : BitVec 64) :
    be64 (v.extractLsb' 56 8) (v.extractLsb' 48 8) (v.extractLsb' 40 8) (v.extractLsb' 32 8)
      (v.extractLsb' 24 8) (v.extractLsb' 16 8) (v.extractLsb' 8 8) (v.extractLsb' 0 8) = v := by
  refine BitVec.eq_of_getLsbD_eq fun i hi => ?_
  simp only [getLsbD_be64, getLsbD_be32, getLsbD_be16, BitVec.getLsbD_extractLsb']
  repeat' split
  all_goals
    rw [decide_eq_true (by omega), Bool.true_and]
    congr 1
    omega

/-- A CF64 pattern is its three fields side by side (R56). -/
theorem cf64_fields (c : BitVec 64) :
    (c.extractLsb' 63 1 ++ c.extractLsb' 56 7 ++ c.extractLsb' 0 56 : BitVec 64) = c := by
  refine BitVec.eq_of_getLsbD_eq fun i hi => ?_
  simp only [BitVec.getLsbD_append, BitVec.getLsbD_extractLsb']
  repeat' split
  all_goals
    rw [decide_eq_true (by omega), Bool.true_and]
    congr 1
    omega

/-- The fields of three fields side by side are the fields. -/
theorem decodeCf64_append (s : BitVec 1) (e : BitVec 7) (m : BitVec 56) :
    decodeCf64 (s ++ e ++ m) = .fcConvert s e m := by
  simp only [decodeCf64, Instr.fcConvert.injEq]
  refine ⟨?_, ?_, ?_⟩ <;>
    (refine BitVec.eq_of_getLsbD_eq fun i hi => ?_
     simp only [BitVec.getLsbD_extractLsb', hi, decide_true, Bool.true_and, BitVec.getLsbD_append]
     repeat' split
     all_goals first | omega | (congr 1; omega))

/-! ### Tags and headers -/

@[simp] theorem tagOfCode_tagCode (t : DataType) : tagOfCode (Config.tagCode t) = some t := by
  cases t <;> decide

/-- A byte below 7 is the code of a tag, a byte from 7 on of none (R53). -/
theorem tagOfCode_eq_none_iff : ∀ b : Byte, tagOfCode b = none ↔ 7 ≤ b.toNat := by decide

theorem tagCode_of_tagOfCode : ∀ (b : Byte) (t : DataType), tagOfCode b = some t → b = Config.tagCode t := by
  intro b t h
  have hp := List.find?_some h
  exact (beq_iff_eq.1 hp).symm

theorem tagCode_injective {t u : DataType} (h : Config.tagCode t = Config.tagCode u) : t = u := by
  have := tagOfCode_tagCode t
  rw [h, tagOfCode_tagCode] at this
  exact (Option.some.inj this).symm

/-- A header of a legal tag and another type than the terminator's selects the FD row of its tag. -/
theorem decodeHeader_ofTag (t : DataType) (length : BitVec 16) (rt : Byte) (h : rt ≠ Config.term) :
    decodeHeader ⟨length, rt, Config.tagCode t⟩ = .ok (Instr.ofTag t length rt) := by
  simp [decodeHeader, h]

/-- A header of a legal tag and the terminator's type selects SQ.TERM. -/
theorem decodeHeader_term (t : DataType) (length : BitVec 16) :
    decodeHeader ⟨length, Config.term, Config.tagCode t⟩ = .ok (.sqTerm length t) := by
  simp [decodeHeader]

/-- What a header that decodes looks like. -/
theorem decodeHeader_cases {h : Header} {i : Instr} (hd : decodeHeader h = .ok i) :
    ∃ t, h.dataType = Config.tagCode t ∧
      ((h.recordType = Config.term ∧ i = .sqTerm h.length t) ∨
       (h.recordType ≠ Config.term ∧ i = Instr.ofTag t h.length h.recordType)) := by
  unfold decodeHeader at hd
  split at hd
  · cases hd
  · next t ht =>
    refine ⟨t, tagCode_of_tagOfCode _ _ ht, ?_⟩
    split at hd
    · next hr => exact .inl ⟨hr, by cases hd; rfl⟩
    · next hr => exact .inr ⟨hr, by cases hd; rfl⟩

/-- A header that does not decode has an illegal tag. -/
theorem decodeHeader_error {h : Header} {r : Reject} (hd : decodeHeader h = .error r) :
    7 ≤ h.dataType.toNat ∧ r = .illegalTag h.dataType := by
  unfold decodeHeader at hd
  split at hd
  · next ht => exact ⟨(tagOfCode_eq_none_iff _).1 ht, by cases hd; rfl⟩
  · split at hd <;> cases hd

/-- The fields of the header word are the header's bytes (R52). -/
theorem Header.ofWord_be32 (b0 b1 b2 b3 : Byte) :
    Header.ofWord (be32 b0 b1 b2 b3) = ⟨be16 b0 b1, b2, b3⟩ := by
  simp only [Header.ofWord, Header.mk.injEq]
  refine ⟨?_, ?_, ?_⟩ <;>
    (refine BitVec.eq_of_getLsbD_eq fun i hi => ?_
     simp only [BitVec.getLsbD_extractLsb', hi, decide_true, Bool.true_and, getLsbD_be32, getLsbD_be16]
     repeat' split
     all_goals first | omega | (congr 1; omega))

end Sys2Proof
end

