-- ==== Sys2Proof/Laws/State.lean ====
section
/-! SUPPORT. One lemma per field per update of the state, so that no later proof unfolds a record update. -/

namespace Sys2Proof.Machine

/-! ### `State.hold` -/

@[simp] theorem State.hold_src (s : State) (r : Record) : (s.hold r).src = s.src := rfl
@[simp] theorem State.hold_n (s : State) (r : Record) : (s.hold r).n = s.n := rfl
@[simp] theorem State.hold_names (s : State) (r : Record) : (s.hold r).names = s.names := rfl
@[simp] theorem State.hold_pos (s : State) (r : Record) : (s.hold r).pos = s.pos := rfl
@[simp] theorem State.hold_st (s : State) (r : Record) : (s.hold r).st = s.st := rfl
@[simp] theorem State.hold_err (s : State) (r : Record) : (s.hold r).err = s.err := rfl
@[simp] theorem State.hold_out (s : State) (r : Record) : (s.hold r).out = s.out := rfl
@[simp] theorem State.hold_latch (s : State) (r : Record) : (s.hold r).latch = r := rfl
@[simp] theorem State.hold_call (s : State) (r : Record) : (s.hold r).call = s.call := rfl
@[simp] theorem State.hold_reply (s : State) (r : Record) : (s.hold r).reply = s.reply := rfl

/-! ### `State.emit` -/

@[simp] theorem State.emit_src (s : State) (name : String) (vs : List DecodedValue) : (s.emit name vs).src = s.src := rfl
@[simp] theorem State.emit_n (s : State) (name : String) (vs : List DecodedValue) : (s.emit name vs).n = s.n := rfl
@[simp] theorem State.emit_names (s : State) (name : String) (vs : List DecodedValue) : (s.emit name vs).names = s.names := rfl
@[simp] theorem State.emit_pos (s : State) (name : String) (vs : List DecodedValue) : (s.emit name vs).pos = s.pos := rfl
@[simp] theorem State.emit_st (s : State) (name : String) (vs : List DecodedValue) : (s.emit name vs).st = s.st := rfl
@[simp] theorem State.emit_err (s : State) (name : String) (vs : List DecodedValue) : (s.emit name vs).err = s.err := rfl
@[simp] theorem State.emit_out (s : State) (name : String) (vs : List DecodedValue) : (s.emit name vs).out = s.out ++ [(name, vs)] := rfl
@[simp] theorem State.emit_latch (s : State) (name : String) (vs : List DecodedValue) : (s.emit name vs).latch = s.latch := rfl
@[simp] theorem State.emit_call (s : State) (name : String) (vs : List DecodedValue) : (s.emit name vs).call = s.call := rfl
@[simp] theorem State.emit_reply (s : State) (name : String) (vs : List DecodedValue) : (s.emit name vs).reply = s.reply := rfl

/-! ### `State.raise` -/

@[simp] theorem State.raise_src (s : State) (k : ErrKind) : (s.raise k).src = s.src := rfl
@[simp] theorem State.raise_n (s : State) (k : ErrKind) : (s.raise k).n = s.n := rfl
@[simp] theorem State.raise_names (s : State) (k : ErrKind) : (s.raise k).names = s.names := rfl
@[simp] theorem State.raise_pos (s : State) (k : ErrKind) : (s.raise k).pos = s.pos := rfl
@[simp] theorem State.raise_st (s : State) (k : ErrKind) : (s.raise k).st = .error := rfl
@[simp] theorem State.raise_err (s : State) (k : ErrKind) : (s.raise k).err = some ⟨k, s.pos, s.out.length⟩ := rfl
@[simp] theorem State.raise_out (s : State) (k : ErrKind) : (s.raise k).out = s.out := rfl
@[simp] theorem State.raise_latch (s : State) (k : ErrKind) : (s.raise k).latch = Record.blank := rfl
@[simp] theorem State.raise_call (s : State) (k : ErrKind) : (s.raise k).call = s.call := rfl
@[simp] theorem State.raise_reply (s : State) (k : ErrKind) : (s.raise k).reply = s.reply := rfl

/-! ### `State.commit` -/

@[simp] theorem State.commit_src (s : State) (rt : Byte) (name : String) (vs : List DecodedValue) (p : Nat) : (s.commit rt name vs p).src = s.src := rfl
@[simp] theorem State.commit_n (s : State) (rt : Byte) (name : String) (vs : List DecodedValue) (p : Nat) : (s.commit rt name vs p).n = s.n := rfl
@[simp] theorem State.commit_names (s : State) (rt : Byte) (name : String) (vs : List DecodedValue) (p : Nat) : (s.commit rt name vs p).names = s.names := rfl
@[simp] theorem State.commit_pos (s : State) (rt : Byte) (name : String) (vs : List DecodedValue) (p : Nat) : (s.commit rt name vs p).pos = p := rfl
@[simp] theorem State.commit_st (s : State) (rt : Byte) (name : String) (vs : List DecodedValue) (p : Nat) : (s.commit rt name vs p).st = if rt = Config.term then .done else s.st := rfl
@[simp] theorem State.commit_err (s : State) (rt : Byte) (name : String) (vs : List DecodedValue) (p : Nat) : (s.commit rt name vs p).err = s.err := rfl
@[simp] theorem State.commit_out (s : State) (rt : Byte) (name : String) (vs : List DecodedValue) (p : Nat) : (s.commit rt name vs p).out = s.out ++ [(name, vs)] := rfl
@[simp] theorem State.commit_latch (s : State) (rt : Byte) (name : String) (vs : List DecodedValue) (p : Nat) : (s.commit rt name vs p).latch = Record.blank := rfl
@[simp] theorem State.commit_call (s : State) (rt : Byte) (name : String) (vs : List DecodedValue) (p : Nat) : (s.commit rt name vs p).call = s.call := rfl
@[simp] theorem State.commit_reply (s : State) (rt : Byte) (name : String) (vs : List DecodedValue) (p : Nat) : (s.commit rt name vs p).reply = s.reply := rfl

/-! ### `State.applyReset` -/

@[simp] theorem State.applyReset_src (s : State) : (s.applyReset).src = s.src := rfl
@[simp] theorem State.applyReset_n (s : State) : (s.applyReset).n = s.n := rfl
@[simp] theorem State.applyReset_names (s : State) : (s.applyReset).names = s.names := rfl
@[simp] theorem State.applyReset_pos (s : State) : (s.applyReset).pos = 0 := rfl
@[simp] theorem State.applyReset_st (s : State) : (s.applyReset).st = .reading := rfl
@[simp] theorem State.applyReset_err (s : State) : (s.applyReset).err = none := rfl
@[simp] theorem State.applyReset_out (s : State) : (s.applyReset).out = [] := rfl
@[simp] theorem State.applyReset_latch (s : State) : (s.applyReset).latch = Record.blank := rfl
@[simp] theorem State.applyReset_call (s : State) : (s.applyReset).call = none := rfl
@[simp] theorem State.applyReset_reply (s : State) : (s.applyReset).reply = s.reply := rfl

/-! ### `State.dismiss` -/

@[simp] theorem State.dismiss_src (s : State) : s.dismiss.src = s.src := rfl
@[simp] theorem State.dismiss_n (s : State) : s.dismiss.n = s.n := rfl
@[simp] theorem State.dismiss_names (s : State) : s.dismiss.names = s.names := rfl
@[simp] theorem State.dismiss_pos (s : State) : s.dismiss.pos = s.pos := rfl
@[simp] theorem State.dismiss_st (s : State) : s.dismiss.st = s.st := rfl
@[simp] theorem State.dismiss_err (s : State) : s.dismiss.err = s.err := rfl
@[simp] theorem State.dismiss_out (s : State) : s.dismiss.out = s.out := rfl
@[simp] theorem State.dismiss_latch (s : State) : s.dismiss.latch = s.latch := rfl
@[simp] theorem State.dismiss_call (s : State) : s.dismiss.call = none := rfl
@[simp] theorem State.dismiss_reply (s : State) : s.dismiss.reply = s.reply := rfl

/-! ### `State.answer` -/

@[simp] theorem State.answer_src (s : State) (r : Reply) : (s.answer r).src = s.src := rfl
@[simp] theorem State.answer_n (s : State) (r : Reply) : (s.answer r).n = s.n := rfl
@[simp] theorem State.answer_names (s : State) (r : Reply) : (s.answer r).names = s.names := rfl
@[simp] theorem State.answer_pos (s : State) (r : Reply) : (s.answer r).pos = s.pos := rfl
@[simp] theorem State.answer_st (s : State) (r : Reply) : (s.answer r).st = s.st := rfl
@[simp] theorem State.answer_err (s : State) (r : Reply) : (s.answer r).err = s.err := rfl
@[simp] theorem State.answer_out (s : State) (r : Reply) : (s.answer r).out = s.out := rfl
@[simp] theorem State.answer_latch (s : State) (r : Reply) : (s.answer r).latch = s.latch := rfl
@[simp] theorem State.answer_call (s : State) (r : Reply) : (s.answer r).call = none := rfl
@[simp] theorem State.answer_reply (s : State) (r : Reply) : (s.answer r).reply = some r := rfl

/-! ### `State.supply` -/

@[simp] theorem State.supply_src (s : State) (bytes : List Byte) (names : List (Byte × String)) : (s.supply bytes names).src = Mem.setBytes [] 0 bytes := rfl
@[simp] theorem State.supply_n (s : State) (bytes : List Byte) (names : List (Byte × String)) : (s.supply bytes names).n = bytes.length := rfl
@[simp] theorem State.supply_names (s : State) (bytes : List Byte) (names : List (Byte × String)) : (s.supply bytes names).names = names := rfl
@[simp] theorem State.supply_pos (s : State) (bytes : List Byte) (names : List (Byte × String)) : (s.supply bytes names).pos = s.pos := rfl
@[simp] theorem State.supply_st (s : State) (bytes : List Byte) (names : List (Byte × String)) : (s.supply bytes names).st = s.st := rfl
@[simp] theorem State.supply_err (s : State) (bytes : List Byte) (names : List (Byte × String)) : (s.supply bytes names).err = s.err := rfl
@[simp] theorem State.supply_out (s : State) (bytes : List Byte) (names : List (Byte × String)) : (s.supply bytes names).out = s.out := rfl
@[simp] theorem State.supply_latch (s : State) (bytes : List Byte) (names : List (Byte × String)) : (s.supply bytes names).latch = s.latch := rfl
@[simp] theorem State.supply_call (s : State) (bytes : List Byte) (names : List (Byte × String)) : (s.supply bytes names).call = s.call := rfl
@[simp] theorem State.supply_reply (s : State) (bytes : List Byte) (names : List (Byte × String)) : (s.supply bytes names).reply = s.reply := rfl

end Sys2Proof.Machine
end

