-- ==== Sys2Proof/Laws/Framer.lean ====
section
/-! SUPPORT. What the header fetch and RF.READ can do, said once: a legal length in natural numbers, the record that is
framed, and each failure. -/

namespace Sys2Proof.Machine

/-! ### Legal lengths -/

/-- A legal length is at least 4, is positive as a signed number, and leaves a whole number of elements. -/
theorem legalLength_iff (t : DataType) (l : BitVec 16) :
    legalLength t l = true ↔ 4 ≤ l.toInt ∧ (Config.width t : Int) ∣ l.toInt - 4 := by
  simp [legalLength]

theorem toNat_of_four_le {l : BitVec 16} (h : 4 ≤ l.toInt) : l.toInt = l.toNat := by
  rw [BitVec.toInt_eq_toNat_cond] at h ⊢
  have := l.isLt
  split at h <;> rename_i hc
  · rw [if_pos hc]
  · omega

theorem legalLength_toInt {t : DataType} {l : BitVec 16} (h : legalLength t l = true) : l.toInt = l.toNat :=
  toNat_of_four_le ((legalLength_iff t l).1 h).1

theorem legalLength_ge {t : DataType} {l : BitVec 16} (h : legalLength t l = true) : 4 ≤ l.toNat := by
  have h4 := ((legalLength_iff t l).1 h).1
  rw [toNat_of_four_le h4] at h4
  omega

theorem legalLength_dvd {t : DataType} {l : BitVec 16} (h : legalLength t l = true) :
    Config.width t ∣ l.toNat - 4 := by
  have hd := ((legalLength_iff t l).1 h).2
  have h4 := legalLength_ge h
  rw [legalLength_toInt h, show (l.toNat : Int) - 4 = ((l.toNat - 4 : Nat) : Int) by omega] at hd
  exact Int.natCast_dvd_natCast.1 hd

/-- RF's length check refuses exactly the lengths that are not legal (R114). -/
theorem corruptLength_eq (t : DataType) (l : BitVec 16) : corruptLength t l = !legalLength t l := by
  rw [Bool.eq_iff_iff, Bool.not_eq_true', ← Bool.not_eq_true, legalLength_iff]
  unfold corruptLength
  split
  · next h => simp only [true_iff]; omega
  · next h =>
    split
    · next hw =>
      rw [hw, decide_eq_true_eq, Nat.cast_zero, zero_dvd_iff]
      omega
    · rw [decide_eq_true_eq, ne_eq, ← Int.dvd_iff_emod_eq_zero]
      simp only [not_and]
      exact ⟨fun h _ => h, fun h' => h' (by omega)⟩

/-! ### Reading the source -/

theorem State.memRead_of_le {s : State} {a k : Nat} (h : a + k ≤ s.n) :
    s.memRead a k = some (Mem.bytes s.src a k) := if_pos h

theorem State.memRead_of_lt {s : State} {a k : Nat} (h : s.n < a + k) : s.memRead a k = none :=
  if_neg (by omega)

/-- The header at the cursor (R111, R112). -/
theorem State.header_of_le {s : State} (h : s.pos + 4 ≤ s.n) :
    s.header = some ⟨s.word16 s.pos, s.byte (s.pos + 2), s.byte (s.pos + 3)⟩ := by
  unfold State.header Config.hdrBytes
  rw [State.memRead_of_le h]
  show some (Header.ofWord (be32 _ _ _ _)) = _
  rw [Header.ofWord_be32]
  rfl

theorem State.header_of_lt {s : State} (h : s.n < s.pos + 4) : s.header = none := by
  unfold State.header Config.hdrBytes
  rw [State.memRead_of_lt h]

theorem State.header_isSome_iff (s : State) : s.header.isSome = true ↔ s.pos + 4 ≤ s.n := by
  by_cases h : s.pos + 4 ≤ s.n
  · simp [State.header_of_le h, h]
  · simp [State.header_of_lt (by omega : s.n < s.pos + 4), h]

/-! ### Cutting chunks -/

/-- A piece of a run of bytes is the run of bytes at its place. -/
theorem Mem.bytes_piece (m : List Host.Cell) (a k i w : Nat) (h : i + w ≤ k) :
    ((Mem.bytes m a k).drop i).take w = Mem.bytes m (a + i) w := by
  refine List.ext_getElem ?_ fun j h1 h2 => ?_
  · simp [Mem.bytes]; omega
  · simp [Mem.bytes, Nat.add_assoc]

/-- The chunks cut from a run of bytes of whole elements (R54). -/
theorem cutChunks_bytes (m : List Host.Cell) (a w n : Nat) :
    cutChunks w n (Mem.bytes m a (n * w)) = (List.range n).map fun i => Mem.bytes m (a + i * w) w := by
  refine List.map_congr_left fun i hi => ?_
  rw [List.mem_range] at hi
  refine Mem.bytes_piece m a _ _ _ ?_
  calc i * w + w = (i + 1) * w := by ring
    _ ≤ n * w := Nat.mul_le_mul_right w hi

/-! ### RF.READ from the header on -/

theorem rfFrame_illegalTag {s : State} {h : Header} (ht : 7 ≤ h.dataType.toNat) :
    rfFrame s h = .error .unsupportedDataType := by
  unfold rfFrame
  rw [(tagOfCode_eq_none_iff _).2 ht]

theorem rfFrame_corrupt {s : State} {t : DataType} {l : BitVec 16} {rt : Byte} (h : legalLength t l = false) :
    rfFrame s ⟨l, rt, Config.tagCode t⟩ = .error .corruptRecordLength := by
  unfold rfFrame
  simp [tagOfCode_tagCode, corruptLength_eq, h]

theorem rfFrame_truncated {s : State} {t : DataType} {l : BitVec 16} {rt : Byte} (h : legalLength t l = true)
    (hn : s.n < s.pos + l.toNat) :
    rfFrame s ⟨l, rt, Config.tagCode t⟩ = .error .truncatedPayload := by
  have h4 := legalLength_ge h
  have hi := legalLength_toInt h
  unfold rfFrame
  simp only [tagOfCode_tagCode, corruptLength_eq, h, Bool.not_true, Bool.false_eq_true, if_false]
  rw [State.memRead_of_lt (by rw [hi, Config.hdrBytes]; omega)]

theorem rfFrame_ok {s : State} {t : DataType} {l : BitVec 16} {rt : Byte} (h : legalLength t l = true)
    (hn : s.pos + l.toNat ≤ s.n) :
    rfFrame s ⟨l, rt, Config.tagCode t⟩ = .ok (recordAt s t l rt, s.pos + l.toNat) := by
  have h4 := legalLength_ge h
  have hi := legalLength_toInt h
  have hk : (l.toInt - 4).toNat = l.toNat - 4 := by omega
  unfold rfFrame
  simp only [tagOfCode_tagCode, corruptLength_eq, h, Bool.not_true, Bool.false_eq_true, if_false]
  rw [hk, State.memRead_of_le (by rw [Config.hdrBytes]; omega), hi, Int.toNat_natCast]
  simp only [recordAt, Except.ok.injEq, Prod.mk.injEq, Record.mk.injEq, true_and, and_true, elementCount, Config.hdrBytes]
  by_cases hw : Config.width t = 0
  · simp [hw, cutChunks]
  · rw [if_neg hw]
    obtain ⟨q, hq⟩ := legalLength_dvd h
    rw [hq, Nat.mul_div_cancel_left _ (Nat.pos_of_ne_zero hw), Nat.mul_comm, cutChunks_bytes]
    rfl

/-- Everything RF.READ can do from a header on, in the order of R119. -/
theorem rfFrame_cases (s : State) (h : Header) :
    (7 ≤ h.dataType.toNat ∧ rfFrame s h = .error .unsupportedDataType) ∨
    ∃ t, h.dataType = Config.tagCode t ∧
      ((legalLength t h.length = false ∧ rfFrame s h = .error .corruptRecordLength) ∨
       (legalLength t h.length = true ∧ s.n < s.pos + h.length.toNat ∧ rfFrame s h = .error .truncatedPayload) ∨
       (legalLength t h.length = true ∧ s.pos + h.length.toNat ≤ s.n ∧
         rfFrame s h = .ok (recordAt s t h.length h.recordType, s.pos + h.length.toNat))) := by
  obtain ⟨l, rt, dt⟩ := h
  rcases hc : tagOfCode dt with _ | t
  · exact .inl ⟨(tagOfCode_eq_none_iff _).1 hc, rfFrame_illegalTag ((tagOfCode_eq_none_iff _).1 hc)⟩
  · obtain rfl := tagCode_of_tagOfCode _ _ hc
    refine .inr ⟨t, rfl, ?_⟩
    rcases hl : legalLength t l with _ | _
    · exact .inl ⟨rfl, rfFrame_corrupt hl⟩
    · by_cases hn : s.pos + l.toNat ≤ s.n
      · exact .inr (.inr ⟨rfl, hn, rfFrame_ok hl hn⟩)
      · exact .inr (.inl ⟨rfl, by simpa using hn, rfFrame_truncated hl (by simpa using hn)⟩)

/-- The record at the cursor meets the invariant of R11 when its length is legal. -/
theorem recordAt_wfFor {s : State} {t : DataType} {l : BitVec 16} {rt : Byte} (h : legalLength t l = true) :
    (recordAt s t l rt).wfFor t = true := by
  have h4 := (legalLength_iff t l).1 h
  have hi := legalLength_toInt h
  have hk : (l.toInt - 4).toNat = l.toNat - 4 := by omega
  simp only [Record.wfFor, Bool.and_eq_true, decide_eq_true_eq, List.all_eq_true]
  refine ⟨⟨⟨h4.1, h4.2⟩, ?_⟩, ?_⟩
  · simp [recordAt, elementCount, hk]
  · intro c hc
    simp only [recordAt, List.mem_map] at hc
    obtain ⟨i, _, rfl⟩ := hc
    simp

theorem recordAt_wf {s : State} {t : DataType} {l : BitVec 16} {rt : Byte} (h : legalLength t l = true) :
    (recordAt s t l rt).wf = true := by
  unfold Record.wf
  simp only [recordAt, tagOfCode_tagCode]
  exact recordAt_wfFor h

end Sys2Proof.Machine
end

