-- ==== Sys2Proof/Laws/Decoder.lean ====
section
/-! SUPPORT. FD chunk by chunk: what `decodeChunks` does with chunks that all give a value, that all give nothing, or of
which one is an error; and what each row makes of the record at the cursor. -/

namespace Sys2Proof.Machine

/-! ### Decoding a list of chunks -/

theorem decodeChunks_nothing {f : Chunk → Element} :
    ∀ {cs : List Chunk}, (∀ c ∈ cs, f c = .nothing) → decodeChunks f cs = .ok []
  | [], _ => rfl
  | c :: cs, h => by
    rw [decodeChunks, h c (List.mem_cons_self ..)]
    exact decodeChunks_nothing fun d hd => h d (List.mem_cons_of_mem _ hd)

theorem decodeChunks_emit {α : Type} {f : Chunk → Element} {g : α → Chunk} {v : α → DecodedValue} :
    ∀ {l : List α}, (∀ x ∈ l, f (g x) = .emit (v x)) → decodeChunks f (l.map g) = .ok (l.map v)
  | [], _ => rfl
  | x :: l, h => by
    rw [List.map_cons, decodeChunks, h x (List.mem_cons_self ..),
      decodeChunks_emit fun y hy => h y (List.mem_cons_of_mem _ hy)]
    rfl

/-- Every chunk gives a value or the error `k`, and one gives the error: so does the record (R99). -/
theorem decodeChunks_err {f : Chunk → Element} {k : ErrKind} :
    ∀ {cs : List Chunk}, (∀ c ∈ cs, (∃ v, f c = .emit v) ∨ f c = .err k) → (∃ c ∈ cs, f c = .err k) →
      decodeChunks f cs = .err k
  | [], _, h => by simp at h
  | c :: cs, hall, hex => by
    rcases hall c (List.mem_cons_self ..) with ⟨v, hv⟩ | he
    · rw [decodeChunks, hv]
      have hex' : ∃ d ∈ cs, f d = .err k := by
        obtain ⟨d, hd, hde⟩ := hex
        rcases List.mem_cons.1 hd with rfl | hd
        · rw [hv] at hde
          cases hde
        · exact ⟨d, hd, hde⟩
      rw [decodeChunks_err (fun d hd => hall d (List.mem_cons_of_mem _ hd)) hex']
    · rw [decodeChunks, he]

/-- What `ok` says of the chunks (R98). -/
theorem decodeChunks_ok_cons {f : Chunk → Element} {c : Chunk} {cs : List Chunk} {vs : List DecodedValue}
    (h : decodeChunks f (c :: cs) = .ok vs) :
    (f c = .nothing ∧ decodeChunks f cs = .ok vs) ∨
    ∃ v vs', f c = .emit v ∧ decodeChunks f cs = .ok vs' ∧ vs = v :: vs' := by
  rw [decodeChunks] at h
  split at h
  · cases h
  · cases h
  · next hn => exact .inl ⟨hn, h⟩
  · next v hv =>
    split at h
    · next vs' hvs => exact .inr ⟨v, vs', hv, hvs, by cases h; rfl⟩
    · cases h
    · cases h

/-- If every value one chunk can give has a property, every value of the record has it. -/
theorem decodeChunks_ok_forall {f : Chunk → Element} {p : DecodedValue → Prop} (hp : ∀ c v, f c = .emit v → p v) :
    ∀ {cs : List Chunk} {vs : List DecodedValue}, decodeChunks f cs = .ok vs → ∀ v ∈ vs, p v
  | [], vs, h, v, hv => by
    cases h
    simp at hv
  | c :: cs, vs, h, v, hv => by
    rcases decodeChunks_ok_cons h with ⟨_, h'⟩ | ⟨w, vs', hw, h', rfl⟩
    · exact decodeChunks_ok_forall hp h' v hv
    · rcases List.mem_cons.1 hv with rfl | hv
      · exact hp c _ hw
      · exact decodeChunks_ok_forall hp h' v hv

/-! ### One chunk -/

/-- No element operation emits a value that may not stand in `OUT` (R102). -/
theorem elementOf_emit_legal (t : DataType) (c : Chunk) (v : DecodedValue) (h : elementOf t c = .emit v) :
    v.legal = true := by
  cases t <;> simp only [elementOf, elementNodata, elementBitarray, elementInt16, elementInt32, elementReal32,
    elementReal64, elementAscii] at h
  case noData => cases h
  case bitArray => cases h
  case ascii =>
    split at h
    · split at h
      · cases h
      · next hb =>
        cases h
        simpa [DecodedValue.legal] using hb
    · cases h
  all_goals
    split at h
    · cases h
      rfl
    · cases h

/-! ### The record at the cursor -/

/-- The payload of the record at the cursor, decoded, when FD accepts it (R91 to R97). -/
theorem decodeChunks_recordAt {s : State} {t : DataType} {l : BitVec 16} {rt : Byte} (hc : s.clean t l) :
    decodeChunks (elementOf t) (recordAt s t l rt).payload = .ok (fieldValues s t l) := by
  cases t
  case noData => rfl
  case bitArray => exact decodeChunks_nothing fun _ _ => rfl
  case ascii =>
    simp only [recordAt, fieldValues, Config.width, Nat.div_one, if_neg (Nat.one_ne_zero)]
    refine decodeChunks_emit fun i hi => ?_
    have hb := hc rfl i (List.mem_range.1 hi)
    simp only [elementOf, elementAscii, List.range_one, List.map_cons, List.map_nil, chunk8, Nat.mul_one, Nat.add_zero,
      hb, Bool.false_eq_true, if_false]
  all_goals
    simp only [recordAt, fieldValues, Config.width, OfNat.ofNat_ne_zero, if_false]
    refine decodeChunks_emit fun i _ => ?_
  case int16 => rw [Nat.mul_comm i 2]; rfl
  case int32 => rw [Nat.mul_comm i 4]; exact congrArg (fun v => Element.emit (.int32 v)) (be32_eq_append ..)
  case real32 => rw [Nat.mul_comm i 4]; exact congrArg (fun v => Element.emit (.float32 v)) (be32_eq_append ..)
  case real64 =>
    rw [Nat.mul_comm i 8]
    refine congrArg (fun v => Element.emit (.float64 (convertPattern v))) ?_
    refine (be64_eq_append ..).trans ?_
    rw [be32_eq_append, be32_eq_append]
    rfl

/-- The payload of the record at the cursor when FD does not accept it: InvalidEncoding (R97, R99). -/
theorem decodeChunks_recordAt_dirty {s : State} {l : BitVec 16} {rt : Byte} {i : Nat} (hi : i < l.toNat - 4)
    (hb : (s.byte (s.pos + 4 + i)).getLsbD 7 = true) :
    decodeChunks (elementOf .ascii) (recordAt s .ascii l rt).payload = .err .invalidEncoding := by
  have hel : ∀ j, elementOf .ascii ((List.range 1).map fun k => s.byte (s.pos + 4 + j * 1 + k)) =
      if (s.byte (s.pos + 4 + j)).getLsbD 7 then .err .invalidEncoding else .emit (.character (s.byte (s.pos + 4 + j))) := by
    intro j
    simp [elementOf, elementAscii, List.range_one, chunk8]
  simp only [recordAt, Config.width, Nat.div_one, if_neg (Nat.one_ne_zero)]
  refine decodeChunks_err (fun c hc => ?_) ⟨_, List.mem_map.2 ⟨i, List.mem_range.2 hi, rfl⟩, ?_⟩
  · obtain ⟨j, _, rfl⟩ := List.mem_map.1 hc
    rw [hel]
    split
    · exact .inr rfl
    · exact .inl ⟨_, rfl⟩
  · rw [hel, if_pos hb]

/-- FD accepts the record at the cursor, or it is an ASCII record with a byte that has bit 7 set. -/
theorem State.clean_or (s : State) (t : DataType) (l : BitVec 16) :
    s.clean t l ∨ (t = .ascii ∧ ∃ i < l.toNat - 4, (s.byte (s.pos + 4 + i)).getLsbD 7 = true) := by
  by_cases h : s.clean t l
  · exact .inl h
  · unfold State.clean at h
    push Not at h
    obtain ⟨ht, i, hi, hb⟩ := h
    exact .inr ⟨ht, i, hi, by simpa using hb⟩

end Sys2Proof.Machine
end

