-- ==== Sys2Proof/Laws/FloatConverter.lean ====
section
/-! SUPPORT. FloatConverter in natural numbers: the normalised mantissa, the rounded significand, and the three fields of
the result of a nonzero mantissa. -/

namespace Sys2Proof.Machine

section
variable {m : BitVec 56}

theorem toNat_pos_of_ne (hm : m ≠ 0) : m.toNat ≠ 0 := fun h => hm (BitVec.eq_of_toNat_eq (by simpa using h))

theorem log2_le (hm : m ≠ 0) : m.toNat.log2 ≤ 55 := by
  have := (Nat.log2_lt (toNat_pos_of_ne hm)).2 m.isLt
  omega

/-- Leading zeros and the place of the leading one. -/
theorem clz56_of_ne (hm : m ≠ 0) : clz56 m = 55 - m.toNat.log2 := if_neg hm

theorem clz56_le (hm : m ≠ 0) : clz56 m ≤ 55 := by
  rw [clz56_of_ne hm]
  omega

/-- `clz56` counts leading zeros: the mantissa fits in the bits below them and needs the highest of these. -/
theorem clz56_spec (hm : m ≠ 0) : 2 ^ (55 - clz56 m) ≤ m.toNat ∧ m.toNat < 2 ^ (56 - clz56 m) := by
  have hL := log2_le hm
  rw [clz56_of_ne hm, show 55 - (55 - m.toNat.log2) = m.toNat.log2 by omega,
    show 56 - (55 - m.toNat.log2) = m.toNat.log2 + 1 by omega]
  exact ⟨Nat.log2_self_le (toNat_pos_of_ne hm), Nat.lt_log2_self⟩

theorem normalised_lt (hm : m ≠ 0) : m.toNat * 2 ^ clz56 m < 2 ^ 56 := by
  calc m.toNat * 2 ^ clz56 m < 2 ^ (56 - clz56 m) * 2 ^ clz56 m :=
        Nat.mul_lt_mul_of_pos_right (clz56_spec hm).2 (Nat.two_pow_pos _)
    _ = 2 ^ 56 := by rw [← pow_add]; congr 1; have := clz56_le hm; omega

/-- The normalised mantissa loses no bit. -/
theorem normalised_toNat (hm : m ≠ 0) : (normalised m).toNat = m.toNat * 2 ^ clz56 m := by
  rw [normalised, BitVec.toNat_shiftLeft, Nat.shiftLeft_eq, Nat.mod_eq_of_lt (normalised_lt hm)]

theorem le_normalised (hm : m ≠ 0) : 2 ^ 55 ≤ m.toNat * 2 ^ clz56 m := by
  calc 2 ^ 55 = 2 ^ (55 - clz56 m) * 2 ^ clz56 m := by rw [← pow_add]; congr 1; have := clz56_le hm; omega
    _ ≤ m.toNat * 2 ^ clz56 m := Nat.mul_le_mul_right _ (clz56_spec hm).1

/-- The rounded significand is the 53-bit quotient by 8, rounded to nearest, ties to even. -/
theorem roundedSignificand_cases (m : BitVec 56) :
    let nm := (normalised m).toNat
    let q := roundedSignificand m
    (q = nm / 8 ∧ (nm % 8 < 4 ∨ (nm % 8 = 4 ∧ nm / 8 % 2 = 0))) ∨
    (q = nm / 8 + 1 ∧ (4 < nm % 8 ∨ (nm % 8 = 4 ∧ nm / 8 % 2 = 1))) := by
  simp only [roundedSignificand, Config.roundUp, Bool.or_eq_true, Bool.and_eq_true, decide_eq_true_eq, beq_iff_eq]
  split
  · next h => right; exact ⟨rfl, by omega⟩
  · next h => left; exact ⟨by omega, by omega⟩

theorem roundedSignificand_bounds (hm : m ≠ 0) : 2 ^ 52 ≤ roundedSignificand m ∧ roundedSignificand m ≤ 2 ^ 53 := by
  have h1 := le_normalised hm
  have h2 := normalised_lt hm
  rw [← normalised_toNat hm] at h1 h2
  have := roundedSignificand_cases m
  simp only at this
  omega

/-- The carry of rounding into the next power of two. -/
def carry (m : BitVec 56) : Nat := if roundedSignificand m = 2 ^ 53 then 1 else 0

/-- The biased exponent of the result, R82: `4E - lz + 766` and the carry. -/
def biasedExponent (e : BitVec 7) (m : BitVec 56) : Nat := 4 * e.toNat + 766 - clz56 m + carry m

/-- The significand of the result after the carry. -/
def finalSignificand (m : BitVec 56) : Nat := if roundedSignificand m = 2 ^ 53 then 2 ^ 52 else roundedSignificand m

theorem biasedExponent_bounds (e : BitVec 7) (hm : m ≠ 0) : 711 ≤ biasedExponent e m ∧ biasedExponent e m ≤ 1275 := by
  have := clz56_le hm
  have := e.isLt
  unfold biasedExponent carry
  split <;> omega

theorem finalSignificand_bounds (hm : m ≠ 0) : 2 ^ 52 ≤ finalSignificand m ∧ finalSignificand m < 2 ^ 53 := by
  have := roundedSignificand_bounds hm
  unfold finalSignificand
  split <;> omega

theorem convert_zero (s : BitVec 1) (e : BitVec 7) : convert s e 0 = s ++ (0 : BitVec 63) := if_pos rfl

/-- The result of a nonzero mantissa is its three fields (R78). -/
theorem convert_of_ne (s : BitVec 1) (e : BitVec 7) (hm : m ≠ 0) :
    convert s e m = s ++ BitVec.ofNat 11 (biasedExponent e m) ++ BitVec.ofNat 52 (finalSignificand m) := by
  have hz := clz56_le hm
  have hx : ∀ x : Int, ∀ n : Nat, x = n → BitVec.ofInt 11 x = BitVec.ofNat 11 n := by
    rintro _ n rfl
    exact BitVec.ofInt_natCast 11 n
  rw [convert, if_neg hm]
  unfold biasedExponent carry finalSignificand
  by_cases hq : roundedSignificand m = 2 ^ 53
  · simp only [if_pos hq]
    rw [hx _ (4 * e.toNat + 766 - clz56 m + 1) (by unfold unbiased; omega)]
  · simp only [if_neg hq]
    rw [hx _ (4 * e.toNat + 766 - clz56 m + 0) (by unfold unbiased; omega)]

end

section
variable (s : BitVec 1) (e : BitVec 7) (x : BitVec 11) (f : BitVec 52)

/-! ### The fields of a binary64 pattern (R62) -/

theorem sign_of_fields : (s ++ x ++ f : BitVec 64).extractLsb' 63 1 = s := by
  refine BitVec.eq_of_getLsbD_eq fun i hi => ?_
  simp only [BitVec.getLsbD_extractLsb', hi, decide_true, Bool.true_and, BitVec.getLsbD_append]
  rw [if_neg (by omega), if_neg (by omega)]
  congr 1
  omega

theorem exponent_of_fields : (s ++ x ++ f : BitVec 64).extractLsb' 52 11 = x := by
  refine BitVec.eq_of_getLsbD_eq fun i hi => ?_
  simp only [BitVec.getLsbD_extractLsb', hi, decide_true, Bool.true_and, BitVec.getLsbD_append]
  rw [if_neg (by omega), if_pos (by omega)]
  congr 1
  omega

theorem fraction_of_fields : (s ++ x ++ f : BitVec 64).extractLsb' 0 52 = f := by
  refine BitVec.eq_of_getLsbD_eq fun i hi => ?_
  simp only [BitVec.getLsbD_extractLsb', hi, decide_true, Bool.true_and, BitVec.getLsbD_append]
  rw [if_pos (by omega)]
  congr 1
  omega

variable {m : BitVec 56} (hm : m ≠ 0)
include hm

theorem convert_sign : (convert s e m).extractLsb' 63 1 = s := by
  rw [convert_of_ne s e hm, sign_of_fields]

theorem convert_exponent : ((convert s e m).extractLsb' 52 11).toNat = biasedExponent e m := by
  have := biasedExponent_bounds e hm
  rw [convert_of_ne s e hm, exponent_of_fields, BitVec.toNat_ofNat, Nat.mod_eq_of_lt (by omega)]

theorem convert_significand : 2 ^ 52 + ((convert s e m).extractLsb' 0 52).toNat = finalSignificand m := by
  have := finalSignificand_bounds hm
  rw [convert_of_ne s e hm, fraction_of_fields, BitVec.toNat_ofNat]
  omega

/-- The magnitude of the result, scaled (R62). -/
theorem fcScaledResult_convert :
    fcScaledResult (convert s e m) = roundedSignificand m * 2 ^ (4 * e.toNat + 55 - clz56 m) := by
  have hb := biasedExponent_bounds e hm
  have hz := clz56_le hm
  rw [fcScaledResult, convert_significand s e hm, convert_exponent s e hm]
  unfold finalSignificand biasedExponent carry
  split
  · next h =>
    rw [h, show 4 * e.toNat + 766 - clz56 m + 1 - 711 = 4 * e.toNat + 55 - clz56 m + 1 by omega, pow_succ,
      show (2 : Nat) ^ 53 = 2 * 2 ^ 52 by norm_num]
    ring
  · rw [show 4 * e.toNat + 766 - clz56 m + 0 - 711 = 4 * e.toNat + 55 - clz56 m by omega]

/-- The exact magnitude, scaled, in terms of the normalised mantissa: eight times the unit of the quotient
(R75). -/
theorem fcScaledExact_eq :
    8 * fcScaledExact e m = (normalised m).toNat * 2 ^ (4 * e.toNat + 55 - clz56 m) := by
  have hz := clz56_le hm
  rw [normalised_toNat hm, fcScaledExact]
  calc 8 * (m.toNat * 2 ^ (4 * e.toNat + 52)) = m.toNat * 2 ^ (4 * e.toNat + 55) := by
        rw [show 4 * e.toNat + 55 = 4 * e.toNat + 52 + 3 by omega, pow_add]; ring
    _ = m.toNat * (2 ^ clz56 m * 2 ^ (4 * e.toNat + 55 - clz56 m)) := by
        rw [← pow_add]; congr 2; omega
    _ = _ := by ring

end

end Sys2Proof.Machine
end

