-- ==== Sys2Proof/Laws/Mem.lean ====
section
/-! SUPPORT. The byte source: reads after writes, and the canonical form, which every operation over it keeps. -/

namespace Sys2Proof.Machine

theorem Mem.wfFrom_mono {lo lo' : Nat} (h : lo' ≤ lo) :
    ∀ {m : List Host.Cell}, Mem.wfFrom lo m = true → Mem.wfFrom lo' m = true
  | [], _ => rfl
  | (k, b) :: m, hw => by
    simp only [Mem.wfFrom, Bool.and_eq_true, decide_eq_true_eq] at hw ⊢
    exact ⟨⟨by omega, hw.1.2⟩, hw.2⟩

/-- An offset below every cell reads as unlisted. -/
theorem Mem.get_of_lt {lo a : Nat} (h : a < lo) :
    ∀ {m : List Host.Cell}, Mem.wfFrom lo m = true → Mem.get m a = Config.unlistedByte
  | [], _ => rfl
  | (k, b) :: m, hw => by
    simp only [Mem.wfFrom, Bool.and_eq_true, decide_eq_true_eq] at hw
    rw [Mem.get, if_neg (by omega)]
    exact Mem.get_of_lt (by omega) hw.2

/-- A store reads back. -/
theorem Mem.get_set_same (a : Nat) (b : Byte) :
    ∀ {lo : Nat} {m : List Host.Cell}, Mem.wfFrom lo m = true → Mem.get (Mem.set m a b) a = b
  | _, [], _ => by
    unfold Mem.set
    split
    · next h => exact h.symm
    · simp [Mem.get]
  | lo, (k, c) :: m, hw => by
    simp only [Mem.wfFrom, Bool.and_eq_true, decide_eq_true_eq] at hw
    unfold Mem.set
    split
    · next hlt =>
      split
      · next hb =>
        rw [hb, Mem.get, if_neg (by omega)]
        exact Mem.get_of_lt (by omega) hw.2
      · simp [Mem.get]
    · split
      · next heq =>
        split
        · next hb => rw [hb]; exact Mem.get_of_lt (by omega) hw.2
        · simp [Mem.get]
      · next hne =>
        rw [Mem.get, if_neg (Ne.symm hne)]
        exact Mem.get_set_same a b hw.2

/-- A store leaves every other offset alone. -/
theorem Mem.get_set_other (a x : Nat) (b : Byte) (hx : x ≠ a) :
    ∀ {lo : Nat} {m : List Host.Cell}, Mem.wfFrom lo m = true → Mem.get (Mem.set m a b) x = Mem.get m x
  | _, [], _ => by
    unfold Mem.set
    split
    · rfl
    · simp [Mem.get, Ne.symm hx]
  | lo, (k, c) :: m, hw => by
    simp only [Mem.wfFrom, Bool.and_eq_true, decide_eq_true_eq] at hw
    unfold Mem.set
    split
    · split
      · rfl
      · simp [Mem.get, Ne.symm hx]
    · split
      · next heq =>
        subst heq
        split
        · simp [Mem.get, Ne.symm hx]
        · simp [Mem.get, Ne.symm hx]
      · simp only [Mem.get]
        rw [Mem.get_set_other a x b hx hw.2]

theorem Mem.wfFrom_set (a : Nat) (b : Byte) :
    ∀ {lo : Nat} {m : List Host.Cell}, Mem.wfFrom lo m = true → lo ≤ a → Mem.wfFrom lo (Mem.set m a b) = true
  | lo, [], _, hlo => by
    unfold Mem.set
    split
    · rfl
    · next hb => simp [Mem.wfFrom, hlo, hb]
  | lo, (k, c) :: m, hw, hlo => by
    have hw' := hw
    simp only [Mem.wfFrom, Bool.and_eq_true, decide_eq_true_eq] at hw
    unfold Mem.set
    split
    · next hlt =>
      split
      · exact hw'
      · next hb =>
        simp only [Mem.wfFrom, Bool.and_eq_true, decide_eq_true_eq]
        exact ⟨⟨hlo, hb⟩, ⟨by omega, hw.1.2⟩, hw.2⟩
    · split
      · next heq =>
        subst heq
        split
        · exact Mem.wfFrom_mono (by omega) hw.2
        · next hb =>
          simp only [Mem.wfFrom, Bool.and_eq_true, decide_eq_true_eq]
          exact ⟨⟨hlo, hb⟩, hw.2⟩
      · simp only [Mem.wfFrom, Bool.and_eq_true, decide_eq_true_eq]
        exact ⟨hw.1, Mem.wfFrom_set a b hw.2 (by omega)⟩

/-- A store keeps the canonical form. -/
theorem Mem.wf_set {m : List Host.Cell} (hw : Mem.wf m = true) (a : Nat) (b : Byte) :
    Mem.wf (Mem.set m a b) = true :=
  Mem.wfFrom_set a b hw (Nat.zero_le a)

/-- A store of several bytes keeps the canonical form. -/
theorem Mem.wf_setBytes : ∀ (bs : List Byte) {m : List Host.Cell} (a : Nat),
    Mem.wf m = true → Mem.wf (Mem.setBytes m a bs) = true
  | [], _, _, hw => hw
  | b :: bs, _, a, hw => Mem.wf_setBytes bs (a + 1) (Mem.wf_set hw a b)

/-- What any offset reads as after a store of several bytes. -/
theorem Mem.get_setBytes : ∀ (bs : List Byte) {m : List Host.Cell} (a x : Nat), Mem.wf m = true →
    Mem.get (Mem.setBytes m a bs) x = if a ≤ x ∧ x < a + bs.length then bs.getD (x - a) 0 else Mem.get m x
  | [], m, a, x, _ => by
    rw [if_neg (by simp only [List.length_nil]; omega)]
    rfl
  | b :: bs, m, a, x, hw => by
    have ih := Mem.get_setBytes bs (a + 1) x (Mem.wf_set hw a b)
    rw [Mem.setBytes, ih]
    rcases Nat.lt_trichotomy x a with h | h | h
    · rw [if_neg (by omega), if_neg (by omega), Mem.get_set_other a x b (by omega) hw]
    · subst h
      rw [if_neg (by omega), if_pos (by simp only [List.length_cons]; omega), Mem.get_set_same x b hw]
      simp
    · by_cases h2 : x < a + 1 + bs.length
      · rw [if_pos (by omega), if_pos (by simp only [List.length_cons]; omega)]
        obtain ⟨d, rfl⟩ : ∃ d, x = a + 1 + d := ⟨x - (a + 1), by omega⟩
        rw [show a + 1 + d - (a + 1) = d by omega, show a + 1 + d - a = d + 1 by omega, List.getD_cons_succ]
      · rw [if_neg (by omega), if_neg (by simp only [List.length_cons]; omega),
          Mem.get_set_other a x b (by omega) hw]

/-- Two sources in canonical form that read alike are equal data. -/
theorem Mem.eq_of_get_eq : ∀ {lo : Nat} {m m' : List Host.Cell}, Mem.wfFrom lo m = true → Mem.wfFrom lo m' = true →
    (∀ a, Mem.get m a = Mem.get m' a) → m = m'
  | _, [], [], _, _, _ => rfl
  | _, [], (k, b) :: m', _, hw', h => by
    simp only [Mem.wfFrom, Bool.and_eq_true, decide_eq_true_eq] at hw'
    have := h k
    simp only [Mem.get, if_true] at this
    exact absurd this.symm hw'.1.2
  | _, (k, b) :: m, [], hw, _, h => by
    simp only [Mem.wfFrom, Bool.and_eq_true, decide_eq_true_eq] at hw
    have := h k
    simp only [Mem.get, if_true] at this
    exact absurd this hw.1.2
  | lo, (k, b) :: m, (k', b') :: m', hw, hw', h => by
    simp only [Mem.wfFrom, Bool.and_eq_true, decide_eq_true_eq] at hw hw'
    have hkk : k = k' := by
      rcases Nat.lt_trichotomy k k' with hlt | heq | hlt
      · have := h k
        rw [Mem.get, if_pos rfl, Mem.get, if_neg (by omega), Mem.get_of_lt (lo := k' + 1) (by omega) hw'.2] at this
        exact absurd this hw.1.2
      · exact heq
      · have := h k'
        rw [Mem.get, if_neg (by omega), Mem.get_of_lt (lo := k + 1) (by omega) hw.2, Mem.get, if_pos rfl] at this
        exact absurd this.symm hw'.1.2
    subst hkk
    have hbb : b = b' := by
      have := h k
      simpa [Mem.get] using this
    subst hbb
    have hrest : m = m' := by
      refine Mem.eq_of_get_eq hw.2 hw'.2 fun a => ?_
      by_cases ha : k = a
      · rw [Mem.get_of_lt (lo := k + 1) (by omega) hw.2, Mem.get_of_lt (lo := k + 1) (by omega) hw'.2]
      · have := h a
        rwa [Mem.get, if_neg ha, Mem.get, if_neg ha] at this
    rw [hrest]

/-- The reset source is in canonical form. -/
theorem State.reset_src_wf : Mem.wf State.reset.src = true := rfl

end Sys2Proof.Machine
end

