-- ==== Sys2Proof/Laws/PerInstr.lean ====
section
/-! SUPPORT. A statement about every operation as syntax: the number of bytes its own word takes. A header row takes the four
bytes of R51, FC.CONVERT the eight of a chunk (R56), and the two rows with mask 0 have no word. -/

namespace Sys2Proof.Laws.EncodeLength

/-- The size of a row's own word. -/
def wordSize : Instr → Nat
  | .fdNodata _ _ => 4
  | .fdBitarray _ _ => 4
  | .fdInt16 _ _ => 4
  | .fdInt32 _ _ => 4
  | .fdReal32 _ _ => 4
  | .fdReal64 _ _ => 4
  | .fdAscii _ _ => 4
  | .fcConvert _ _ _ => 8
  | .rfRead => 0
  | .sqStep => 0
  | .sqTerm _ _ => 4

/-- The encoder writes exactly the row's own word. -/
def Statement (i : Instr) : Prop := (encode i).length = wordSize i

theorem fdNodata (length : BitVec 16) (rt : Byte) : Statement (.fdNodata length rt) := rfl
theorem fdBitarray (length : BitVec 16) (rt : Byte) : Statement (.fdBitarray length rt) := rfl
theorem fdInt16 (length : BitVec 16) (rt : Byte) : Statement (.fdInt16 length rt) := rfl
theorem fdInt32 (length : BitVec 16) (rt : Byte) : Statement (.fdInt32 length rt) := rfl
theorem fdReal32 (length : BitVec 16) (rt : Byte) : Statement (.fdReal32 length rt) := rfl
theorem fdReal64 (length : BitVec 16) (rt : Byte) : Statement (.fdReal64 length rt) := rfl
theorem fdAscii (length : BitVec 16) (rt : Byte) : Statement (.fdAscii length rt) := rfl
theorem fcConvert (s : BitVec 1) (e : BitVec 7) (m : BitVec 56) : Statement (.fcConvert s e m) := rfl
theorem rfRead : Statement .rfRead := rfl
theorem sqStep : Statement .sqStep := rfl
theorem sqTerm (length : BitVec 16) (t : DataType) : Statement (.sqTerm length t) := rfl

end Sys2Proof.Laws.EncodeLength
end

