-- ==== Sys2Proof/Laws/Sequencer.lean ====
section
/-! SUPPORT. The record step, SQ.STEP and the fetch: each outcome with the condition that leads to it, and one lemma that
says everything a record step can do. -/

namespace Sys2Proof.Machine

theorem commit_eq_committed {s : State} (hr : s.st = .reading) (rt : Byte) (name : String) (vs : List DecodedValue)
    (l : BitVec 16) : s.commit rt name vs (s.pos + l.toNat) = committed s rt name vs l := by
  simp only [State.commit, State.emit, committed, hr, Config.term]

theorem hold_commit (s : State) (r : Record) (rt : Byte) (name : String) (vs : List DecodedValue) (p : Nat) :
    (s.hold r).commit rt name vs p = s.commit rt name vs p := rfl

theorem hold_raise (s : State) (r : Record) (k : ErrKind) : (s.hold r).raise k = errored s k := rfl

theorem raise_eq_errored (s : State) (k : ErrKind) : s.raise k = errored s k := rfl

@[simp] theorem State.nameOf_hold (s : State) (r : Record) (rt : Byte) : (s.hold r).nameOf rt = s.nameOf rt := rfl

/-! ### The record step -/

section
variable {s : State} {t : DataType} {l : BitVec 16} {rt : Byte}

theorem recordStep_disabled {f : Chunk → Element} {h : Header} (hr : s.st ≠ .reading) :
    recordStep f h s = .next s := if_pos hr

theorem recordStep_beyond {f : Chunk → Element} {h : Header} (hr : s.st = .reading) (hp : s.n < s.pos) :
    recordStep f h s = .fault .cursorBeyondSource := by
  rw [recordStep, if_neg (by simp [hr]), if_pos hp]

theorem recordStep_eq {f : Chunk → Element} {h : Header} (hr : s.st = .reading) (hp : s.pos ≤ s.n) :
    recordStep f h s =
      match rfFrame s h with
      | .error k => .next (s.raise k)
      | .ok (r, pos') => finishRecord (s.hold r) r.recordType (decodeChunks f r.payload) pos' := by
  refine (if_neg (by simp [hr])).trans ((if_neg (by omega)).trans ?_)
  rcases rfFrame s h with k | ⟨r, pos'⟩ <;> rfl

theorem recordStep_corrupt (hr : s.st = .reading) (hp : s.pos ≤ s.n) (h : legalLength t l = false) :
    recordStep (elementOf t) ⟨l, rt, Config.tagCode t⟩ s = .next (errored s .corruptRecordLength) := by
  rw [recordStep_eq hr hp, rfFrame_corrupt h]
  rfl

theorem recordStep_truncated (hr : s.st = .reading) (hp : s.pos ≤ s.n) (h : legalLength t l = true)
    (hn : s.n < s.pos + l.toNat) :
    recordStep (elementOf t) ⟨l, rt, Config.tagCode t⟩ s = .next (errored s .truncatedPayload) := by
  rw [recordStep_eq hr hp, rfFrame_truncated h hn]
  rfl

theorem recordStep_fits (h : s.fits t l) :
    recordStep (elementOf t) ⟨l, rt, Config.tagCode t⟩ s =
      finishRecord (s.hold (recordAt s t l rt)) rt (decodeChunks (elementOf t) (recordAt s t l rt).payload)
        (s.pos + l.toNat) := by
  obtain ⟨hr, hl, hn⟩ := h
  rw [recordStep_eq hr (by omega), rfFrame_ok hl hn]
  rfl

theorem recordStep_commits {name : String} (h : s.fits t l) (hc : s.clean t l) (hname : s.nameOf rt = some name) :
    recordStep (elementOf t) ⟨l, rt, Config.tagCode t⟩ s = .next (committed s rt name (fieldValues s t l) l) := by
  rw [recordStep_fits h, decodeChunks_recordAt hc, ← commit_eq_committed h.1]
  simp only [finishRecord, State.nameOf_hold, hname, hold_commit]

theorem recordStep_unknown (h : s.fits t l) (hc : s.clean t l) (hname : s.nameOf rt = none) :
    recordStep (elementOf t) ⟨l, rt, Config.tagCode t⟩ s = .next (errored s .unknownRecordType) := by
  rw [recordStep_fits h, decodeChunks_recordAt hc]
  simp only [finishRecord, State.nameOf_hold, hname, hold_raise]

theorem recordStep_dirty {i : Nat} (h : s.fits .ascii l) (hi : i < l.toNat - 4)
    (hb : (s.byte (s.pos + 4 + i)).getLsbD 7 = true) :
    recordStep (elementOf .ascii) ⟨l, rt, Config.tagCode .ascii⟩ s = .next (errored s .invalidEncoding) := by
  rw [recordStep_fits h, decodeChunks_recordAt_dirty hi hb]
  rfl

/-- Everything a record step can do in Reading with the cursor inside the source. -/
theorem recordStep_cases (hr : s.st = .reading) (hp : s.pos ≤ s.n) :
    (∃ k, recordStep (elementOf t) ⟨l, rt, Config.tagCode t⟩ s = .next (errored s k)) ∨
    (∃ name, s.fits t l ∧ s.clean t l ∧ s.nameOf rt = some name ∧
      recordStep (elementOf t) ⟨l, rt, Config.tagCode t⟩ s = .next (committed s rt name (fieldValues s t l) l)) := by
  rcases hl : legalLength t l with _ | _
  · exact .inl ⟨_, recordStep_corrupt hr hp hl⟩
  by_cases hn : s.pos + l.toNat ≤ s.n
  · have hf : s.fits t l := ⟨hr, hl, hn⟩
    rcases s.clean_or t l with hc | ⟨rfl, i, hi, hb⟩
    · rcases hname : s.nameOf rt with _ | name
      · exact .inl ⟨_, recordStep_unknown hf hc hname⟩
      · exact .inr ⟨name, hf, hc, rfl, recordStep_commits hf hc hname⟩
    · exact .inl ⟨_, recordStep_dirty hf hi hb⟩
  · exact .inl ⟨_, recordStep_truncated hr hp hl (by omega)⟩

end

/-! ### The rows of the header are the record step of their tag -/

theorem exec_ofTag (t : DataType) (l : BitVec 16) (rt : Byte) (s : State) :
    exec (Instr.ofTag t l rt) s = recordStep (elementOf t) ⟨l, rt, Config.tagCode t⟩ s := by
  cases t <;> rfl

theorem exec_sqTerm (t : DataType) (l : BitVec 16) (s : State) :
    exec (.sqTerm l t) s = recordStep (elementOf t) ⟨l, Config.term, Config.tagCode t⟩ s := rfl

/-- The row that a header selects is the record step of its tag. -/
theorem exec_decodeHeader {h : Header} {i : Instr} (hd : decodeHeader h = .ok i) (s : State) :
    ∃ t, h.dataType = Config.tagCode t ∧ exec i s = recordStep (elementOf t) h s := by
  obtain ⟨t, ht, ⟨hr, rfl⟩ | ⟨-, rfl⟩⟩ := decodeHeader_cases hd
  · refine ⟨t, ht, ?_⟩
    rw [exec_sqTerm, ← hr, ← ht]
  · refine ⟨t, ht, ?_⟩
    rw [exec_ofTag, ← ht]

/-! ### SQ.STEP -/

section
variable {s : State}

theorem execSqStep_disabled (hr : s.st ≠ .reading) : execSqStep s = .next s := if_pos hr

theorem execSqStep_beyond (hr : s.st = .reading) (hp : s.n < s.pos) :
    execSqStep s = .fault .cursorBeyondSource := by
  rw [execSqStep, if_neg (by simp [hr]), if_pos hp]

theorem execSqStep_end (hr : s.st = .reading) (hp : s.pos = s.n) :
    execSqStep s = .next (errored s .missingTerminator) := by
  rw [execSqStep, if_neg (by simp [hr]), if_neg (by omega), if_pos (by omega)]
  rfl

theorem execSqStep_short (hr : s.st = .reading) (hp : s.pos < s.n) (hn : s.n < s.pos + 4) :
    execSqStep s = .next (errored s .malformedHeader) := by
  rw [execSqStep, if_neg (by simp [hr]), if_neg (by omega), if_neg (by omega)]
  simp only [rfRead, State.header_of_lt hn]
  rfl

theorem execSqStep_illegalTag (hr : s.st = .reading) (hn : s.pos + 4 ≤ s.n) (ht : 7 ≤ (s.byte (s.pos + 3)).toNat) :
    execSqStep s = .next (errored s .unsupportedDataType) := by
  rw [execSqStep, if_neg (by simp [hr]), if_neg (by omega), if_neg (by omega)]
  simp only [rfRead, State.header_of_le hn]
  rw [rfFrame_illegalTag ht]
  rfl

/-- SQ.STEP on a header with a legal tag is the record step of that tag. -/
theorem execSqStep_tag {t : DataType} (hr : s.st = .reading) (hn : s.pos + 4 ≤ s.n)
    (ht : s.byte (s.pos + 3) = Config.tagCode t) :
    execSqStep s = recordStep (elementOf t) ⟨s.word16 s.pos, s.byte (s.pos + 2), Config.tagCode t⟩ s := by
  rw [execSqStep, if_neg (by simp [hr]), if_neg (by omega), if_neg (by omega), recordStep_eq hr (by omega)]
  simp only [rfRead, State.header_of_le hn, ht]
  rcases rfFrame_cases s ⟨s.word16 s.pos, s.byte (s.pos + 2), Config.tagCode t⟩ with ⟨_, h⟩ | ⟨u, hu, hc⟩
  · rw [h]
  · obtain rfl := tagCode_injective hu
    rcases hc with ⟨_, h⟩ | ⟨_, _, h⟩ | ⟨_, _, h⟩ <;> rw [h]
    simp only [fdDecode, recordAt, tagOfCode_tagCode]

/-- Everything SQ.STEP can do in Reading with the cursor inside the source (R131). -/
theorem execSqStep_cases (hr : s.st = .reading) (hp : s.pos ≤ s.n) :
    (∃ k, execSqStep s = .next (errored s k)) ∨
    (∃ t name, s.byte (s.pos + 3) = Config.tagCode t ∧ s.fits t (s.word16 s.pos) ∧ s.clean t (s.word16 s.pos) ∧
      s.nameOf (s.byte (s.pos + 2)) = some name ∧
      execSqStep s = .next (committed s (s.byte (s.pos + 2)) name (fieldValues s t (s.word16 s.pos))
        (s.word16 s.pos))) := by
  by_cases h0 : s.pos = s.n
  · exact .inl ⟨_, execSqStep_end hr h0⟩
  by_cases h4 : s.pos + 4 ≤ s.n
  · rcases hc : tagOfCode (s.byte (s.pos + 3)) with _ | t
    · exact .inl ⟨_, execSqStep_illegalTag hr h4 ((tagOfCode_eq_none_iff _).1 hc)⟩
    · have ht := tagCode_of_tagOfCode _ _ hc
      rw [execSqStep_tag hr h4 ht]
      rcases recordStep_cases (t := t) (l := s.word16 s.pos) (rt := s.byte (s.pos + 2)) hr hp with h | ⟨name, hf, hcl, hn, h⟩
      · exact .inl h
      · exact .inr ⟨t, name, ht, hf, hcl, hn, h⟩
  · exact .inl ⟨_, execSqStep_short hr (by omega) (by omega)⟩

end

/-! ### The fetch -/

theorem State.fetch_of_header {s : State} {h : Header} {i : Instr} (hh : s.header = some h)
    (hd : decodeHeader h = .ok i) : s.fetch = i := by
  rw [State.fetch, hh]
  simp only [hd]

theorem State.fetch_of_noHeader {s : State} (hh : s.header = none) : s.fetch = .sqStep := by
  rw [State.fetch, hh]

theorem State.fetch_of_error {s : State} {h : Header} {r : Reject} (hh : s.header = some h)
    (hd : decodeHeader h = .error r) : s.fetch = .sqStep := by
  rw [State.fetch, hh]
  simp only [hd]

theorem step_of_noCall {s : State} (h : s.call = none) : step s = exec s.fetch s := by
  rw [step, h]

theorem step_of_call {s : State} {c : Call} (h : s.call = some c) : step s = serve c s := by
  rw [step, h]

end Sys2Proof.Machine
end

