-- ==== Sys2Proof/Laws/Run.lean ====
section
/-! SUPPORT. Runs of several steps, and everything a pending call can lead to. -/

namespace Sys2Proof.Machine

/-- One step of a run, then the rest of it. -/
theorem run_succ (k : Nat) (s : State) :
    core.run (k + 1) s =
      match step s with
      | .next s' => core.run k s'
      | .fault r => .fault r
      | .refused r => .refused r := by
  have hstep : core.step s = step s := rfl
  cases h : step s <;> rw [h] at hstep <;> exact (Host.Core.run.eq_2 core s k).trans (by rw [hstep])

/-- Everything a call can do when it completes: reset; in Reading, RF's record latched, or an answer with `REC`
consumed; an answer; or, once the run is over, nothing. -/
theorem step_call_cases {s t : State} {c : Call} (hc : s.call = some c) (h : step s = .next t) :
    (c = .reset ∧ t = s.applyReset) ∨
    (s.st = .reading ∧ ∃ r p reply, rfRead s = .ok (r, p) ∧ t = (s.hold r).answer reply) ∨
    (s.st = .reading ∧ ∃ reply, t = ({ s with latch := Record.blank } : State).answer reply) ∨
    (∃ reply, t = s.answer reply) ∨
    (s.st ≠ .reading ∧ t = s.dismiss) := by
  rw [step_of_call hc] at h
  cases c with
  | reset => cases h; exact .inl ⟨rfl, rfl⟩
  | convert c => cases h; exact .inr (.inr (.inr (.inl ⟨_, rfl⟩)))
  | element tag c => cases h; exact .inr (.inr (.inr (.inl ⟨_, rfl⟩)))
  | decode r =>
    simp only [serve, serveDecode, answerDecoded] at h
    split at h <;> cases h <;> exact .inr (.inr (.inr (.inl ⟨_, rfl⟩)))
  | decodeLatch =>
    replace h : serveDecodeLatch s = .next t := h
    by_cases hr : s.st = .reading
    · rw [serveDecodeLatch, if_neg (by simp [hr])] at h
      unfold answerDecoded at h
      split at h <;> cases h <;> exact .inr (.inr (.inl ⟨hr, _, rfl⟩))
    · rw [serveDecodeLatch, if_pos hr] at h
      cases h
      exact .inr (.inr (.inr (.inr ⟨hr, rfl⟩)))
  | readRecord =>
    replace h : execRfRead s = .next t := h
    by_cases hr : s.st = .reading
    · rw [execRfRead, if_neg (by simp [hr])] at h
      split at h
      · cases h
      · split at h
        · next r p heq => cases h; exact .inr (.inl ⟨hr, r, p, _, heq, rfl⟩)
        · cases h; exact .inr (.inr (.inr (.inl ⟨_, rfl⟩)))
    · rw [execRfRead, if_pos hr] at h
      cases h
      exact .inr (.inr (.inr (.inr ⟨hr, rfl⟩)))

/-- Entries to Error of two kinds are two states. -/
theorem errored_injective {s : State} {k k' : ErrKind}
    (h : (.next (errored s k) : Host.Outcome State Fault Refusal) = .next (errored s k')) : k = k' := by
  have he := congrArg State.err (Host.Outcome.next.inj h)
  exact congrArg ErrRecord.kind (Option.some.inj he)

end Sys2Proof.Machine
end

