-- ==== Sys2Proof/Tests/Slice0.lean ====
section
/-! SUPPORT. Tests: words written out from the encodings of spec/30_encoding.md, ill-formed terms, one step of each operation
on the vectors of spec/95_test_vectors.md, and for every statement with hypotheses a state and operands that meet
them. Every expected value is the spec's own or worked out by hand from its rules. -/

namespace Sys2Proof.Tests

open Sys2Proof.Machine

/-! ### Helpers -/

/-- The test table `T` of 95_test_vectors.md section 5. -/
def table : List (Byte × String) :=
  [(0x00, "HEADER"), (0x03, "UNITS"), (0x04, "ENDLIB"), (0x10, "XY"), (0x19, "STRING"), (0x1B, "MAG")]

/-- The machine after reset with these bytes as its source and `T` as its name table. -/
def stream (bytes : List Byte) : State := State.reset.supply bytes table

/-- The same, with a call of the host pending. -/
def calling (c : Call) (bytes : List Byte) : State := { stream bytes with call := some c }

/-- The fields of a next state that a step on the stream writes. -/
structure Seen where
  st  : SeqState
  pos : Nat
  err : Option ErrRecord
  out : List (String × List DecodedValue)
  deriving DecidableEq, Repr

/-- What is seen of an outcome; none of a fault or a refusal. -/
def seen (o : Host.Outcome State Fault Refusal) : Option Seen :=
  (nextOf o).map fun s => ⟨s.st, s.pos, s.err, s.out⟩

/-- The answer an outcome leaves. -/
def answered (o : Host.Outcome State Fault Refusal) : Option Reply := (nextOf o).bind State.reply

/-- The error that the step on a source with these bytes enters, the first record failing. -/
def fails (bytes : List Byte) (k : ErrKind) : Prop :=
  seen (step (stream bytes)) = some ⟨.error, 0, some ⟨k, 0, 0⟩, []⟩

/-! ### Words (R51, R53, R56, R57, R61) -/

/-- `00 04 00 00`: length 4, type 0x00, tag NoData. -/
theorem test_word_nodata : decode .record [0x00, 0x04, 0x00, 0x00] = .ok (.fdNodata 4 0x00, []) := rfl

/-- `00 06 00 01`: length 6, tag BitArray (P11). -/
theorem test_word_bitarray : decode .record [0x00, 0x06, 0x00, 0x01, 0xAB] = .ok (.fdBitarray 6 0x00, [0xAB]) := rfl

/-- `00 06 00 02`: length 6, tag Int16 (P1). -/
theorem test_word_int16 : decode .record [0x00, 0x06, 0x00, 0x02] = .ok (.fdInt16 6 0x00, []) := rfl

/-- `00 0C 10 03`: length 12, type 0x10, tag Int32 (P3). -/
theorem test_word_int32 : decode .record [0x00, 0x0C, 0x10, 0x03] = .ok (.fdInt32 12 0x10, []) := rfl

/-- `00 08 1B 04`: length 8, type 0x1B, tag Real32 (P3); the tag 0x04 is not the terminator's type. -/
theorem test_word_real32 : decode .record [0x00, 0x08, 0x1B, 0x04] = .ok (.fdReal32 8 0x1B, []) := rfl

/-- `00 14 03 05`: length 20, type 0x03, tag Real64Custom (P2). -/
theorem test_word_real64 : decode .record [0x00, 0x14, 0x03, 0x05] = .ok (.fdReal64 20 0x03, []) := rfl

/-- `00 06 19 06`: length 6, type 0x19, tag ASCII (P3). -/
theorem test_word_ascii : decode .record [0x00, 0x06, 0x19, 0x06] = .ok (.fdAscii 6 0x19, []) := rfl

/-- `00 04 04 01`: type 0x04 is the terminator whatever its tag (P3, R61). -/
theorem test_word_term : decode .record [0x00, 0x04, 0x04, 0x01] = .ok (.sqTerm 4 .bitArray, []) := rfl

/-- `FF FC 00 02`: a negative length is the record's to fail on, not the header's (P11). -/
theorem test_word_negative_length : decode .record [0xFF, 0xFC, 0x00, 0x02] = .ok (.fdInt16 0xFFFC 0x00, []) := rfl

/-- `C1 10 ..`: sign 1, exponent 0x41, mantissa `10 00 00 00 00 00 00` (V6, R56). -/
theorem test_word_cf64 :
    decode .cf64 [0xC1, 0x10, 0x00, 0x00, 0x00, 0x00, 0x00, 0x00] = .ok (.fcConvert 1 0x41 0x10000000000000, []) := rfl

/-- The dataType byte 0x07 is refused by its name (R58), and so are three bytes. -/
theorem test_word_refused :
    decode .record [0x00, 0x04, 0x00, 0x07] = .error (.illegalTag 0x07) ∧
    decode .record [0x00, 0x04, 0x04] = .error .tooShort ∧
    decode .cf64 [0x41, 0x10, 0x00, 0x00, 0x00, 0x00, 0x00] = .error .tooShort := ⟨rfl, rfl, rfl⟩

/-- The host's numbering: the row's mask is over `H` (R52), and a word shorter than `H` has zeros above. -/
theorem test_tableWord :
    decodeTableWord 32 0x000C1003 = some (.fdInt32 12 0x10) ∧ decodeTableWord 16 0x0400 = some (.sqTerm 0 .noData) ∧
    decodeTableWord 8 0x05 = some (.fdReal64 0 0) ∧ decodeTableWord 32 0x07 = none ∧
    decodeTableWord 64 0x4110000000000000 = some (.fcConvert 0 0x41 0x10000000000000) := by decide

/-- A word placed for the fetch is what the next step runs: a header at the cursor, a chunk as a call. -/
theorem test_withFetchWord :
    (State.reset.withFetchWord 32 0x00040400).fetch = .sqTerm 4 .noData ∧
    seen (step (State.reset.withFetchWord 32 0x00040400)) = some ⟨.done, 4, none, [("ENDLIB", [])]⟩ ∧
    answered (step (State.reset.withFetchWord 64 0x4110000000000000)) = some (.float64 0x3FF0000000000000) := by decide

/-- With no whole header at the cursor, or an illegal tag, the operation that runs is SQ.STEP. -/
theorem test_fetch_sqStep :
    (stream []).fetch = .sqStep ∧ (stream [0x00, 0x04, 0x04]).fetch = .sqStep ∧
    (stream [0x00, 0x04, 0x00, 0x07]).fetch = .sqStep := by decide

/-! ### Ill-formed terms, one for each check of WellFormed -/

/-- A length below 4, one with bit 15 set, and one that is no whole number of elements (R54, R59). -/
theorem test_wf_length :
    (Instr.fdInt16 3 0x00).wf = false ∧ (Instr.fdInt16 0xFFFC 0x00).wf = false ∧ (Instr.fdInt16 7 0x00).wf = false ∧
    (Instr.fdReal64 16 0x00).wf = false ∧ (Instr.fdAscii 4 0x00).wf = true := by decide

/-- NoData with a length other than 4 (C4). -/
theorem test_wf_nodata : (Instr.fdNodata 6 0x00).wf = false ∧ (Instr.fdNodata 4 0x00).wf = true := by decide

/-- The terminator's record type in an FD row, and a terminator of a bad length. -/
theorem test_wf_term :
    (Instr.fdInt32 8 0x04).wf = false ∧ (Instr.sqTerm 6 .int32).wf = false ∧ (Instr.sqTerm 8 .int32).wf = true := by decide

/-! ### FC.CONVERT (95_test_vectors.md section 3) -/

/-- S3, V6, V14, V16. -/
theorem test_fcConvert_vectors :
    convertPattern 0x3E4189374BC6A7F0 = 0x3F50624DD2F1A9FC ∧ convertPattern 0xC110000000000000 = 0xBFF0000000000000 ∧
    convertPattern 0x7FFFFFFFFFFFFFFF = 0x4FB0000000000000 ∧ convertPattern 0x0000000000000001 = 0x2C70000000000000 := by
  decide

/-- V20a, V20b, V20c, V20d, V20j: the ties to even, above and below half, and the carry. -/
theorem test_fcConvert_rounding :
    convertPattern 0x4080000000000004 = 0x3FE0000000000000 ∧ convertPattern 0x408000000000000C = 0x3FE0000000000002 ∧
    convertPattern 0x4080000000000005 = 0x3FE0000000000001 ∧ convertPattern 0x4080000000000003 = 0x3FE0000000000000 ∧
    convertPattern 0x40FFFFFFFFFFFFFC = 0x3FF0000000000000 := by decide

/-- FcZeroExactlyForZeroMantissa and FcSignOfZero at V3 and V2. -/
theorem test_fcConvert_zero : convert 0 0x7F 0 = 0 ∧ convert 1 0 0 = 0x8000000000000000 := by decide

theorem test_witness_FcResultIsNormal :
    (1 : BitVec 56) ≠ 0 ∧ ((convert 0 0 1).extractLsb' 52 11).toNat = 711 ∧
    ((convert 1 0x7F 0xFFFFFFFFFFFFFF).extractLsb' 52 11).toNat = 1275 := by decide

/-- A tie: the mantissa of V20a, at the least exponent, whose result has an even significand. -/
theorem test_witness_FcRoundsToNearestEven :
    (0x80000000000004 : BitVec 56) ≠ 0 ∧
    2 * fcScaledExact 0 0x80000000000004 =
      2 * fcScaledResult (convert 0 0 0x80000000000004) +
        2 ^ (((convert 0 0 0x80000000000004).extractLsb' 52 11).toNat - 711) ∧
    (convert 0 0 0x80000000000004).getLsbD 0 = false := by decide

/-- V20j and V20k around a power of two: the tie below it rounds up to the fraction 0, at exactly a quarter of the
result's unit, and the next lower mantissa does not. The clause is met at the mantissa of V20j. -/
theorem test_witness_FcRoundsToNearestEven_powerOfTwo :
    convertPattern 0x40FFFFFFFFFFFFFC = 0x3FF0000000000000 ∧ convertPattern 0x40FFFFFFFFFFFFFB = 0x3FEFFFFFFFFFFFFF ∧
    (0xFFFFFFFFFFFFFC : BitVec 56) ≠ 0 ∧ (convert 0 0 0xFFFFFFFFFFFFFC).extractLsb' 0 52 = 0 ∧
    4 * fcScaledResult (convert 0 0 0xFFFFFFFFFFFFFC) =
      4 * fcScaledExact 0 0xFFFFFFFFFFFFFC +
        2 ^ (((convert 0 0 0xFFFFFFFFFFFFFC).extractLsb' 52 11).toNat - 711) := by decide

theorem test_witness_FcExactUpTo53Bits :
    (0xFFFFFFFFFFFFF8 : BitVec 56) ≠ 0 ∧ 2 ^ 53 - 1 < 2 ^ 53 ∧
    (0xFFFFFFFFFFFFF8 : BitVec 56).toNat = (2 ^ 53 - 1) * 2 ^ 3 := by decide

/-- V13 and V5, and the bounds `E = 1`, `M = 2^52 - 1`. -/
theorem test_witness_FcUnnormalisedInputsAgree :
    0 < (0x42 : BitVec 7).toNat ∧ (0x01000000000000 : BitVec 56).toNat < 2 ^ 52 ∧
    convert 0 0x42 0x01000000000000 = 0x3FF0000000000000 ∧ convert 0 0x41 0x10000000000000 = 0x3FF0000000000000 ∧
    0 < (1 : BitVec 7).toNat ∧ (0x0FFFFFFFFFFFFF : BitVec 56).toNat < 2 ^ 52 := by decide

/-! ### Encodings -/

theorem test_witness_DecodeOfEncode :
    (Instr.fdInt16 6 0xFF).wf = true ∧ (Instr.fdAscii 0x7FFF 0x00).wf = true ∧ (Instr.sqTerm 4 .real64).wf = true ∧
    (Instr.fcConvert 1 0x7F 0xFFFFFFFFFFFFFF).wf = true ∧ Instr.fdInt16 6 0xFF ≠ .rfRead ∧
    Instr.fdInt16 6 0xFF ≠ .sqStep := by decide

theorem test_witness_EncodeOfDecode :
    decode .record [0x00, 0x04, 0x04, 0x06, 0xDE] = .ok (.sqTerm 4 .ascii, [0xDE]) := rfl

theorem test_witness_IllegalTagRejected : (∀ t, (0x07 : Byte) ≠ Config.tagCode t) ∧ ∀ t, (0xFF : Byte) ≠ Config.tagCode t :=
  ⟨fun t => by cases t <;> decide, fun t => by cases t <;> decide⟩

/-! ### The FD rows: each statement's hypotheses met, with the result the spec's vector gives -/

theorem test_witness_NoDataRecordResult :
    (stream [0x00, 0x04, 0x00, 0x00]).fits .noData 4 ∧ (stream [0x00, 0x04, 0x00, 0x00]).nameOf 0x00 = some "HEADER" ∧
    seen (exec (.fdNodata 4 0x00) (stream [0x00, 0x04, 0x00, 0x00])) = some ⟨.reading, 4, none, [("HEADER", [])]⟩ := by
  unfold State.fits; decide

/-- The nearest accepted input of P11. -/
theorem test_witness_BitArrayRecordResult :
    (stream [0x00, 0x06, 0x00, 0x01, 0xAB, 0xCD]).fits .bitArray 6 ∧
    (stream [0x00, 0x06, 0x00, 0x01, 0xAB, 0xCD]).nameOf 0x00 = some "HEADER" ∧
    seen (exec (.fdBitarray 6 0x00) (stream [0x00, 0x06, 0x00, 0x01, 0xAB, 0xCD])) =
      some ⟨.reading, 6, none, [("HEADER", [])]⟩ := by
  unfold State.fits; decide

/-- V23: the four corners of a signed 16-bit integer. -/
theorem test_witness_Int16RecordResult :
    let s := stream [0x00, 0x0C, 0x00, 0x02, 0x00, 0x00, 0x7F, 0xFF, 0x80, 0x00, 0xFF, 0xFF]
    s.fits .int16 12 ∧ s.nameOf 0x00 = some "HEADER" ∧
    seen (exec (.fdInt16 12 0x00) s) =
      some ⟨.reading, 12, none, [("HEADER", [.int16 0, .int16 32767, .int16 (-32768), .int16 (-1)])]⟩ := by
  unfold State.fits; decide

/-- V26, the first record of P3. -/
theorem test_witness_Int32RecordResult :
    let s := stream [0x00, 0x0C, 0x10, 0x03, 0xFF, 0xFF, 0xFC, 0x18, 0x00, 0x00, 0x07, 0xD0]
    s.fits .int32 12 ∧ s.nameOf 0x10 = some "XY" ∧
    seen (exec (.fdInt32 12 0x10) s) = some ⟨.reading, 12, none, [("XY", [.int32 (-1000), .int32 2000])]⟩ := by
  unfold State.fits; decide

/-- V28: NaNs and -0.0 unchanged. -/
theorem test_witness_Real32RecordResult :
    let s := stream [0x00, 0x10, 0x1B, 0x04, 0x7F, 0xC0, 0x00, 0x00, 0x7F, 0x80, 0x00, 0x01, 0x80, 0x00, 0x00, 0x00]
    s.fits .real32 16 ∧ s.nameOf 0x1B = some "MAG" ∧
    seen (exec (.fdReal32 16 0x1B) s) =
      some ⟨.reading, 16, none, [("MAG", [.float32 0x7FC00000, .float32 0x7F800001, .float32 0x80000000])]⟩ := by
  unfold State.fits; decide

/-- V29, the first record of P2. -/
theorem test_witness_Real64RecordResult :
    let s := stream [0x00, 0x14, 0x03, 0x05, 0x3E, 0x41, 0x89, 0x37, 0x4B, 0xC6, 0xA7, 0xF0,
      0x39, 0x44, 0xB8, 0x2F, 0xA0, 0x9B, 0x5A, 0x54]
    s.fits .real64 20 ∧ s.nameOf 0x03 = some "UNITS" ∧
    seen (exec (.fdReal64 20 0x03) s) =
      some ⟨.reading, 20, none, [("UNITS", [.float64 0x3F50624DD2F1A9FC, .float64 0x3E112E0BE826D695])]⟩ := by
  unfold State.fits; decide

/-- V31: the greatest legal byte among the others. -/
theorem test_witness_AsciiRecordResult :
    let s := stream [0x00, 0x07, 0x19, 0x06, 0x00, 0x7F, 0x41]
    s.fits .ascii 7 ∧ s.nameOf 0x19 = some "STRING" ∧ (∀ i < (7 : BitVec 16).toNat - 4, (s.byte (s.pos + 4 + i)).toNat < 0x80) ∧
    seen (exec (.fdAscii 7 0x19) s) =
      some ⟨.reading, 7, none, [("STRING", [.character 0x00, .character 0x7F, .character 0x41])]⟩ := by
  unfold State.fits; decide

/-- V32 and V33: the least illegal byte, and an illegal byte behind a legal one. -/
theorem test_witness_AsciiHighByteFails :
    let s := stream [0x00, 0x05, 0x19, 0x06, 0x80]
    let u := stream [0x00, 0x06, 0x19, 0x06, 0x41, 0xC3]
    (s.fits .ascii 5 ∧ 0 < (5 : BitVec 16).toNat - 4 ∧ 0x80 ≤ (s.byte (s.pos + 4 + 0)).toNat) ∧
    (u.fits .ascii 6 ∧ 1 < (6 : BitVec 16).toNat - 4 ∧ 0x80 ≤ (u.byte (u.pos + 4 + 1)).toNat) ∧
    seen (exec (.fdAscii 6 0x19) u) = some ⟨.error, 0, some ⟨.invalidEncoding, 0, 0⟩, []⟩ := by
  unfold State.fits; decide

/-- Each corner of a signed chunk (V23, V25). -/
theorem test_chunks :
    elementInt16 [0x80, 0x00] = .emit (.int16 (-32768)) ∧ elementInt16 [0x7F, 0xFF] = .emit (.int16 32767) ∧
    elementInt32 [0x80, 0x00, 0x00, 0x00] = .emit (.int32 (-2147483648)) ∧
    elementReal32 [0x3F, 0xC0, 0x00, 0x00] = .emit (.float32 0x3FC00000) := by decide

/-- V22, V24, V26 and V30, FD alone on the record's tag and payload. -/
theorem test_witness_FdDecodesByTag :
    fdDecode ⟨6, 0x00, 0x01, [[0xAB], [0xCD]]⟩ = .ok [] ∧
    ([[0x02, 0x58]] : List Chunk) = [((0x02 : Byte), (0x58 : Byte))].map (fun p => [p.1, p.2]) ∧
    fdDecode ⟨6, 0x00, 0x02, [[0x02, 0x58]]⟩ = .ok [.int16 600] ∧
    ([[0xFF, 0xFF, 0xFC, 0x18]] : List Chunk) =
      [((0xFF : Byte), (0xFF : Byte), (0xFC : Byte), (0x18 : Byte))].map (fun p => [p.1, p.2.1, p.2.2.1, p.2.2.2]) ∧
    fdDecode ⟨8, 0x00, 0x03, [[0xFF, 0xFF, 0xFC, 0x18]]⟩ = .ok [.int32 (-1000)] ∧
    ([[0xC1, 0x10, 0, 0, 0, 0, 0, 0]] : List Chunk) =
      [(0xC110000000000000 : BitVec 64)].map (fun c => (List.range 8).map fun i => c.extractLsb' (56 - 8 * i) 8) ∧
    fdDecode ⟨12, 0x00, 0x05, [[0xC1, 0x10, 0, 0, 0, 0, 0, 0]]⟩ = .ok [.float64 0xBFF0000000000000] := by decide

theorem test_witness_DecodingIsElementWise :
    DataType.ascii ≠ .noData ∧ DataType.ascii ≠ .bitArray ∧
    decodeChunks (elementOf .ascii) [[0x41], [0x7F]] = .ok [.character 0x41, .character 0x7F] ∧
    ([[0x41], [0x7F]] : List Chunk)[1]? = some [0x7F] := by decide

/-- The value bus (R101) for `int16 -2`, and a character above 0x7F. -/
theorem test_element_bus :
    elementDatapath 0x02 0xFFFE000000000000 = ⟨true, 1, 0xFFFFFFFFFFFFFFFE, 0⟩ ∧
    elementDatapath 0x06 0x7F00000000000000 = ⟨true, 5, 0x7F, 0⟩ ∧
    elementDatapath 0x06 0x8000000000000000 = ⟨false, 0, 0, 5⟩ ∧
    elementDatapath 0x07 0 = ⟨false, 0, 0, 2⟩ ∧ elementDatapath 0xFF 0 = ⟨false, 0, 0, 2⟩ := by decide

/-- V35. -/
theorem test_witness_FdAloneRejectsUnknownTag :
    (calling (.decode ⟨4, 0x00, 0x07, []⟩) []).call = some (.decode ⟨4, 0x00, 0x07, []⟩) ∧ 7 ≤ (0x07 : Byte).toNat ∧
    answered (step (calling (.decode ⟨4, 0x00, 0x07, []⟩) [])) = some (.error .unsupportedDataType) := by decide

/-! ### RF.READ -/

/-- A record that ends where the source ends, and one with a byte behind it. -/
theorem test_witness_RfReadResult :
    let s := stream [0x00, 0x06, 0x00, 0x02, 0x02, 0x58]
    s.st = .reading ∧ s.headerIs 6 0x00 (Config.tagCode .int16) ∧ legalLength .int16 6 = true ∧ s.pos + (6 : BitVec 16).toNat ≤ s.n ∧
    answered (exec .rfRead s) = some (.record ⟨6, 0x00, 0x02, [[0x02, 0x58]]⟩ 6) := by
  unfold State.headerIs; decide

/-- MalformedHeader for zero and for three bytes (R111, C9); a cursor at `N` is no fault. -/
theorem test_witness_RfReadFailures_short :
    (stream []).st = .reading ∧ (stream []).pos ≤ (stream []).n ∧ (stream []).n < (stream []).pos + 4 ∧
    answered (exec .rfRead (stream [])) = some (.error .malformedHeader) ∧
    (stream [0x00, 0x04, 0x04]).n < (stream [0x00, 0x04, 0x04]).pos + 4 ∧
    answered (exec .rfRead (stream [0x00, 0x04, 0x04])) = some (.error .malformedHeader) := by decide

/-- The least illegal tag, before a bad length is looked at (V50). -/
theorem test_witness_RfReadFailures_tag :
    let s := stream [0x00, 0x02, 0x00, 0x07]
    s.pos ≤ s.n ∧ s.pos + 4 ≤ s.n ∧ 7 ≤ (s.byte (s.pos + 3)).toNat ∧
    answered (exec .rfRead s) = some (.error .unsupportedDataType) := by decide

/-- Length 3 under the greatest legal tag, and NoData of length 5 (C4). -/
theorem test_witness_RfReadFailures_length :
    let s := stream [0x00, 0x03, 0x00, 0x06]
    let u := stream [0x00, 0x05, 0x00, 0x00, 0x00]
    (s.pos + 4 ≤ s.n ∧ (s.byte (s.pos + 3)).toNat < 7 ∧ (s.word16 s.pos).toInt < 4) ∧
    answered (exec .rfRead s) = some (.error .corruptRecordLength) ∧
    (u.pos + 4 ≤ u.n ∧ (u.byte (u.pos + 3)).toNat < 7 ∧
      ¬ ((widthOfCode (u.byte (u.pos + 3)) : Int) ∣ (u.word16 u.pos).toInt - 4)) ∧
    answered (exec .rfRead u) = some (.error .corruptRecordLength) := by decide

/-- One payload byte missing. -/
theorem test_witness_RfReadFailures_truncated :
    let s := stream [0x00, 0x06, 0x00, 0x02, 0x02]
    s.pos + 4 ≤ s.n ∧ (s.byte (s.pos + 3)).toNat < 7 ∧ 4 ≤ (s.word16 s.pos).toInt ∧
    (widthOfCode (s.byte (s.pos + 3)) : Int) ∣ (s.word16 s.pos).toInt - 4 ∧ s.n < s.pos + (s.word16 s.pos).toNat ∧
    answered (exec .rfRead s) = some (.error .truncatedPayload) := by decide

/-- RfRecordsAreWellFormed and FdErrorsBehindRf: a record RF frames, with an illegal character. -/
theorem test_witness_RfRecords :
    rfRead (stream [0x00, 0x05, 0x19, 0x06, 0x80]) = .ok (⟨5, 0x19, 0x06, [[0x80]]⟩, 5) ∧
    fdDecode ⟨5, 0x19, 0x06, [[0x80]]⟩ = .err .invalidEncoding := ⟨rfl, rfl⟩

/-- A negative length, with the header ending where the source ends. -/
theorem test_witness_HeaderFieldsAtCursor :
    let s := stream [0xFF, 0xFC, 0x00, 0x02]
    s.pos + 4 ≤ s.n ∧ (s.header.map fun h => h.length.toInt) = some (-4) := by decide

/-! ### The sequencer -/

/-- P1, its first record. -/
theorem test_witness_SqStepCommits :
    let s := stream [0x00, 0x06, 0x00, 0x02, 0x02, 0x58, 0x00, 0x04, 0x04, 0x00]
    s.headerIs 6 0x00 (Config.tagCode .int16) ∧ s.fits .int16 6 ∧ s.clean .int16 6 ∧ s.nameOf 0x00 = some "HEADER" ∧
    seen (exec .sqStep s) = some ⟨.reading, 6, none, [("HEADER", [.int16 600])]⟩ := by
  unfold State.headerIs State.fits State.clean; decide

/-- V56: a terminator with a payload. -/
theorem test_witness_SqTermEndsTheRun :
    let s := stream [0x00, 0x06, 0x04, 0x02, 0x00, 0x2A, 0x00, 0x06, 0x00, 0x02, 0x00, 0x01]
    s.fits .int16 6 ∧ s.clean .int16 6 ∧ s.nameOf 0x04 = some "ENDLIB" ∧
    seen (exec (.sqTerm 6 .int16) s) = some ⟨.done, 6, none, [("ENDLIB", [.int16 42])]⟩ := by
  unfold State.fits State.clean; decide

/-- A terminator of tag ASCII whose payload is legal, and the empty ASCII payload (V34). -/
theorem test_witness_clean_ascii :
    (stream [0x00, 0x05, 0x04, 0x06, 0x7F]).fits .ascii 5 ∧ (stream [0x00, 0x05, 0x04, 0x06, 0x7F]).clean .ascii 5 ∧
    (stream [0x00, 0x04, 0x04, 0x06]).fits .ascii 4 ∧ (stream [0x00, 0x04, 0x04, 0x06]).clean .ascii 4 := by
  unfold State.fits State.clean; decide

/-- P10 for the FD row, and a name table without the terminator's name for SQ.TERM. -/
theorem test_witness_UnknownTypeFails :
    let s := stream [0x00, 0x04, 0x3F, 0x00]
    let u := State.reset.supply [0x00, 0x04, 0x04, 0x00] []
    (s.fits .noData 4 ∧ s.clean .noData 4 ∧ s.nameOf 0x3F = none) ∧ fails [0x00, 0x04, 0x3F, 0x00] .unknownRecordType ∧
    (u.fits .noData 4 ∧ u.clean .noData 4 ∧ u.nameOf 0x04 = none) := by
  unfold State.fits State.clean fails; decide

/-- Length 3, length -4 and 3 payload bytes under Int16 (P4, P11). -/
theorem test_witness_CorruptLengthFails :
    let s := stream [0x00, 0x07, 0x10, 0x02, 0x00, 0x01, 0x02]
    s.st = .reading ∧ s.pos ≤ s.n ∧ ((3 : BitVec 16).toInt < 4) ∧ ((0xFFFC : BitVec 16).toInt < 4) ∧
    ¬ ((Config.width .int16 : Int) ∣ (7 : BitVec 16).toInt - 4) ∧
    fails [0x00, 0x07, 0x10, 0x02, 0x00, 0x01, 0x02] .corruptRecordLength ∧
    fails [0xFF, 0xFC, 0x00, 0x02, 0x00, 0x04, 0x04, 0x00] .corruptRecordLength := by
  unfold fails; decide

/-- P7. -/
theorem test_witness_TruncatedPayloadFails :
    let s := stream [0x00, 0x0C, 0x10, 0x03, 0x00, 0x00, 0x00, 0x01, 0x00, 0x00]
    s.st = .reading ∧ s.pos ≤ s.n ∧ legalLength .int32 12 = true ∧ s.n < s.pos + (12 : BitVec 16).toNat ∧
    fails [0x00, 0x0C, 0x10, 0x03, 0x00, 0x00, 0x00, 0x01, 0x00, 0x00] .truncatedPayload := by
  unfold fails; decide

/-- V55. -/
theorem test_witness_EndOfSourceIsMissingTerminator :
    (stream []).call = none ∧ (stream []).st = .reading ∧ (stream []).pos = (stream []).n ∧
    fails [] .missingTerminator := by
  unfold fails; decide

/-- V54: one and three bytes. -/
theorem test_witness_ShortHeaderIsMalformed :
    (stream [0x00]).call = none ∧ (stream [0x00]).st = .reading ∧ (stream [0x00]).pos < (stream [0x00]).n ∧
    (stream [0x00, 0x04, 0x04]).n < (stream [0x00, 0x04, 0x04]).pos + 4 ∧ fails [0x00] .malformedHeader ∧
    fails [0x00, 0x04, 0x04] .malformedHeader := by
  unfold fails; decide

/-- The second clause of ShortHeaderIsMalformed: its premise holds at V54. -/
theorem test_witness_ShortHeaderIsMalformed_converse :
    step (stream [0x00]) = .next (errored (stream [0x00]) .malformedHeader) := rfl

/-- P8. -/
theorem test_witness_IllegalTagIsUnsupported :
    let s := stream [0x00, 0x04, 0x00, 0x07, 0x00, 0x04, 0x04, 0x00]
    (s.call = none ∧ s.st = .reading ∧ s.pos + 4 ≤ s.n ∧ fails [0x00, 0x04, 0x00, 0x07, 0x00, 0x04, 0x04, 0x00] .unsupportedDataType) ∧
    ∀ t, s.byte (s.pos + 3) ≠ Config.tagCode t :=
  ⟨by unfold fails; decide, fun t => by cases t <;> decide⟩

/-- V51, V52 and V53: the order of the checks (R160). -/
theorem test_priority :
    fails [0x00, 0x07, 0x10, 0x02, 0x00] .corruptRecordLength ∧
    fails [0x00, 0x05, 0x77, 0x06, 0xC3, 0x00, 0x04, 0x04, 0x00] .invalidEncoding ∧
    fails [0x00, 0x0D, 0x03, 0x05, 0, 0, 0, 0, 0, 0, 0, 0, 0, 0x00, 0x04, 0x04, 0x00] .corruptRecordLength := by
  unfold fails; decide

theorem test_witness_DoneAndErrorAreAbsorbing :
    let s := { stream [0x00, 0x04, 0x00, 0x00] with st := .done }
    let u := { calling .readRecord [0x00, 0x04, 0x00, 0x07] with st := .error }
    s.st ≠ .reading ∧ u.st ≠ .reading ∧ s.call = none ∧ u.call ≠ some .reset ∧
    Instr.format (.fdNodata 4 0x00) = .record ∧ Instr.fdNodata 4 0x00 ≠ .rfRead := by decide

/-- R162 and R138: neither the failing record in Error nor a record behind the terminator in Done is read by a call,
and FD finds nothing to consume; the call is taken off and nothing is answered. -/
theorem test_over :
    let u := { calling .readRecord [0x00, 0x04, 0x04, 0x00] with st := .error, err := some ⟨.unknownRecordType, 0, 0⟩ }
    let v := { calling .readRecord [0x00, 0x04, 0x04, 0x00] with st := .done }
    let w := { calling .decodeLatch [] with st := .error }
    step u = .next { u with call := none } ∧ step v = .next { v with call := none } ∧
    step w = .next { w with call := none } := ⟨rfl, rfl, rfl⟩

/-- A step that commits and one that enters Error, both with a next state. -/
theorem test_witness_StreamRowsFrame :
    Instr.format (.fdNodata 4 0x00) = .record ∧ Instr.fdNodata 4 0x00 ≠ .rfRead ∧
    (nextOf (exec (.fdNodata 4 0x00) (stream [0x00, 0x04, 0x00, 0x00]))).isSome = true ∧
    (nextOf (exec .sqStep (stream []))).isSome = true ∧
    (nextOf (exec (.sqTerm 4 .noData) (stream [0x00, 0x04, 0x04, 0x00]))).isSome = true := by decide

theorem test_witness_StepKeepsRunParameters :
    step (stream []) = .next (errored (stream []) .missingTerminator) ∧
    step (calling .reset [0x01]) = .next (stream [0x01]) := ⟨rfl, rfl⟩

/-! ### The machine -/

/-- The header ends where the source ends. -/
theorem test_witness_StepRunsDecodedInstruction :
    let s := stream [0x00, 0x04, 0x04, 0x00]
    s.call = none ∧ s.pos + 4 ≤ s.n ∧
    decode .record [s.byte s.pos, s.byte (s.pos + 1), s.byte (s.pos + 2), s.byte (s.pos + 3)] =
      .ok (.sqTerm 4 .noData, []) := ⟨rfl, by decide, rfl⟩

/-- StepIsSqStep, StepReportsFirstFailure: the hypotheses at P1, and each failure of R160 on a vector that shows it. -/
theorem test_witness_StepReportsFirstFailure :
    let s := stream [0x00, 0x06, 0x00, 0x02, 0x02, 0x58]
    (s.call = none ∧ s.st = .reading ∧ s.pos ≤ s.n) ∧ firstFailure s = none ∧
    firstFailure (stream []) = some .missingTerminator ∧
    firstFailure (stream [0x00, 0x04, 0x04]) = some .malformedHeader ∧
    firstFailure (stream [0x00, 0x02, 0x00, 0x07]) = some .unsupportedDataType ∧
    firstFailure (stream [0x00, 0x07, 0x10, 0x02, 0x00]) = some .corruptRecordLength ∧
    firstFailure (stream [0x00, 0x06, 0x00, 0x02, 0x02]) = some .truncatedPayload ∧
    firstFailure (stream [0x00, 0x05, 0x77, 0x06, 0x80]) = some .invalidEncoding ∧
    firstFailure (stream [0x00, 0x05, 0x77, 0x06, 0x7F]) = some .unknownRecordType := by decide

/-- P4, its second step: the error names the cursor and the one record before it. -/
theorem test_witness_ErrorEntryIsPrecise :
    let s := { stream [0x00, 0x06, 0x00, 0x02, 0x00, 0x05, 0x00, 0x07, 0x10, 0x02, 0x00, 0x01, 0x02] with
      pos := 6, out := [("HEADER", [.int16 5])] }
    s.call = none ∧ s.st = .reading ∧
    seen (step s) = some ⟨.error, 6, some ⟨.corruptRecordLength, 6, 1⟩, [("HEADER", [.int16 5])]⟩ := by decide

/-- P1, its second step: the terminator ends where the source ends. -/
theorem test_witness_SuccessAdvancesByLength :
    let s := { stream [0x00, 0x06, 0x00, 0x02, 0x02, 0x58, 0x00, 0x04, 0x04, 0x00] with
      pos := 6, out := [("HEADER", [.int16 600])] }
    s.call = none ∧ s.st = .reading ∧
    seen (step s) = some ⟨.done, 10, none, [("HEADER", [.int16 600]), ("ENDLIB", [])]⟩ := by decide

/-- StepKeepsInvariant and StepAlwaysCompletes: states of the invariant with no call, with FD put to an unknown
tag, with FD put to a record RF could frame, and with a record in `REC`. -/
theorem test_witness_StepKeepsInvariant :
    (stream [0x00, 0x04, 0x04, 0x00]).Inv ∧ (calling (.decode ⟨4, 0x00, 0x07, []⟩) [0x00]).Inv ∧
    ({ calling .decodeLatch [0x01] with latch := ⟨5, 0x19, 0x06, [[0x41]]⟩ } : State).Inv ∧
    (nextOf (step (stream [0x00, 0x04, 0x04, 0x00]))).isSome = true := by
  unfold State.Inv; decide

theorem test_witness_StepAlwaysCompletes :
    (stream [0x00, 0x04, 0x04, 0x00]).callOk ∧ (calling (.decode ⟨4, 0x00, 0x07, []⟩) []).callOk ∧
    (calling (.decode ⟨5, 0x19, 0x06, [[0x41]]⟩) []).callOk ∧
    ({ calling .decodeLatch [0x01] with latch := ⟨5, 0x19, 0x06, [[0x41]]⟩ } : State).callOk :=
  ⟨trivial, .inl rfl, .inr rfl, trivial⟩

/-- The reset command in Error. -/
theorem test_witness_ResetCommandEffect :
    let s := { calling .reset [0x00] with st := .error, err := some ⟨.malformedHeader, 0, 0⟩ }
    s.call = some .reset ∧ seen (step s) = some ⟨.reading, 0, none, []⟩ := by decide

/-- Each call of CallsRunTheirComponent. -/
theorem test_witness_CallsRunTheirComponent :
    (calling (.convert 0xC110000000000000) []).call =
      some (.convert ((1 : BitVec 1) ++ (0x41 : BitVec 7) ++ (0x10000000000000 : BitVec 56))) ∧
    answered (step (calling (.convert 0xC110000000000000) [])) = some (.float64 0xBFF0000000000000) ∧
    answered (step (calling .readRecord [0x00, 0x04, 0x04, 0x00])) = some (.record ⟨4, 0x04, 0x00, []⟩ 4) ∧
    answered (step (calling (.element 0x06 0x4100000000000000) [])) = some (.element ⟨true, 5, 0x41, 0⟩) ∧
    (Record.wf ⟨5, 0x19, 0x06, [[0x41]]⟩ = true ∧ fdDecode ⟨5, 0x19, 0x06, [[0x41]]⟩ = .ok [.character 0x41]) ∧
    answered (step (calling (.decode ⟨5, 0x19, 0x06, [[0x41]]⟩) [])) = some (.values [.character 0x41]) ∧
    (Record.wf ⟨5, 0x19, 0x06, [[0x80]]⟩ = true ∧ fdDecode ⟨5, 0x19, 0x06, [[0x80]]⟩ = .err .invalidEncoding) ∧
    answered (step (calling (.decode ⟨5, 0x19, 0x06, [[0x80]]⟩) [])) = some (.error .invalidEncoding) := by decide

/-- The two calls on `REC`, which each consume it. -/
theorem test_witness_CallsRunTheirComponent_latch :
    let s := { calling .decodeLatch [] with latch := ⟨5, 0x19, 0x06, [[0x41]]⟩ }
    let u := { calling .decodeLatch [] with latch := ⟨5, 0x19, 0x06, [[0x80]]⟩ }
    answered (step s) = some (.values [.character 0x41]) ∧ ((nextOf (step s)).map State.latch) = some Record.blank ∧
    answered (step u) = some (.error .invalidEncoding) ∧
    s.st = .reading ∧ s.latch.wf = true ∧ fdDecode s.latch = .ok [.character 0x41] ∧
    u.latch.wf = true ∧ fdDecode u.latch = .err .invalidEncoding := by decide

/-- FD on `REC` right after reset is no stop: `REC` holds the blank record, which decodes to nothing. -/
theorem test_latch_at_reset : answered (step (calling .decodeLatch [])) = some (.values []) := by decide

/-- Each side of StopsOutsideTheContractOnly: the stops, and the nearest steps that do not stop. -/
theorem test_witness_StopsOutsideTheContractOnly :
    step { stream [] with pos := 1 } = .fault .cursorBeyondSource ∧
    step { calling .readRecord [] with pos := 1 } = .fault .cursorBeyondSource ∧
    step (calling (.decode ⟨6, 0x00, 0x02, [[0x01]]⟩) []) = .refused .recordOutsideContract ∧
    step { calling .decodeLatch [] with latch := ⟨6, 0x00, 0x02, []⟩ } = .refused .recordOutsideContract ∧
    (nextOf (step { stream [] with pos := 1, st := .done })).isSome = true ∧
    (nextOf (step { calling .readRecord [] with pos := 1, st := .error })).isSome = true ∧
    (nextOf (step (calling (.decode ⟨6, 0x00, 0x02, [[0x01, 0x02]]⟩) []))).isSome = true :=
  ⟨rfl, rfl, rfl, rfl, rfl, rfl, rfl⟩

/-- RunEndsInBoundedSteps, OutputIsAppendOnly and RunDependsOnParametersOnly: a run of one step. -/
theorem test_witness_run :
    let s := stream [0x00, 0x04, 0x04, 0x00]
    s.Inv ∧ s.call = none ∧ seen (core.run 1 s) = some ⟨.done, 4, none, [("ENDLIB", [])]⟩ := by
  unfold State.Inv; decide

theorem test_witness_RunDependsOnParametersOnly :
    let s := stream []
    let s' := { calling .readRecord [] with st := .done, pos := 7, reply := some (.float64 0) }
    sameRun s s' ∧ core.run 1 s.applyReset = .next (errored (stream []) .missingTerminator) := ⟨⟨rfl, rfl, rfl⟩, rfl⟩

/-- P1 with its second record and everything behind it replaced. -/
theorem test_witness_StepReadsOnlyItsRecord :
    let s := stream [0x00, 0x06, 0x00, 0x02, 0x02, 0x58, 0x00, 0x04, 0x04, 0x00]
    let src' := Mem.setBytes [] 0 [0x00, 0x06, 0x00, 0x02, 0x02, 0x58, 0xDE, 0xAD]
    s.call = none ∧ s.st = .reading ∧
    seen (step s) = some ⟨.reading, 6, none, [("HEADER", [.int16 600])]⟩ ∧
    ∀ a < 6, Mem.get src' a = s.byte a := by decide

/-- P1's first line, and a terminator line. -/
theorem test_witness_AssembledRecordDecodes :
    let s := stream [0x00, 0x06, 0x00, 0x02, 0x02, 0x58]
    assembleRecord 0x00 (.int16 [600]) = some [0x00, 0x06, 0x00, 0x02, 0x02, 0x58] ∧
    assembleRecord 0x04 .nodata = some [0x00, 0x04, 0x04, 0x00] ∧ s.call = none ∧ s.st = .reading ∧
    s.nameOf 0x00 = some "HEADER" ∧ s.pos + 6 ≤ s.n ∧
    ∀ i < 6, s.byte (s.pos + i) = ([0x00, 0x06, 0x00, 0x02, 0x02, 0x58] : List Byte).getD i 0 := by decide

theorem test_witness_ErrorKindsStayDistinct :
    let s := { stream [] with st := .error, err := some ⟨.malformedHeader, 0, 0⟩ }
    let t := { stream [] with st := .error, err := some ⟨.missingTerminator, 0, 0⟩ }
    s.err = some ⟨.malformedHeader, 0, 0⟩ ∧ t.err = some ⟨.missingTerminator, 0, 0⟩ ∧ s.errKind = 1 ∧ t.errKind = 7 := by
  decide

end Sys2Proof.Tests
end

/-! PROOFS. FloatConverter: when a result is a zero (R76). -/

namespace Sys2Proof.Machine

/-- The exponent of a binary64 pattern lies in its magnitude, the 63 bits below the sign (R62). -/
theorem exponent_of_magnitude (r : BitVec 64) : (r.extractLsb' 0 63).extractLsb' 52 11 = r.extractLsb' 52 11 := by
  refine BitVec.eq_of_getLsbD_eq fun i hi => ?_
  have hi' : 52 + i < 63 := by omega
  simp only [BitVec.getLsbD_extractLsb', hi, hi', decide_true, Bool.true_and, Nat.zero_add]

/-- A zero mantissa gives a zero (R80). -/
theorem magnitude_convert_zero (s : BitVec 1) (e : BitVec 7) : (convert s e 0).extractLsb' 0 63 = 0 := by
  rw [convert_zero, BitVec.extractLsb'_append_eq_right]

/-- A nonzero mantissa gives a normal number, whose biased exponent is at least 711 (R79), so no zero. -/
theorem magnitude_convert_ne_zero (s : BitVec 1) (e : BitVec 7) {m : BitVec 56} (hm : m ≠ 0) :
    (convert s e m).extractLsb' 0 63 ≠ 0 := by
  intro hzero
  have hexp : biasedExponent e m = 0 := by
    rw [← convert_exponent s e hm, ← exponent_of_magnitude, hzero]
    rfl
  have hlow := (biasedExponent_bounds e hm).1
  omega

/-- Settles O6: a zero mantissa gives a zero by definition, and the exponent of any other result is not zero. -/
theorem fcZeroExactlyForZeroMantissa : Obligations.FcZeroExactlyForZeroMantissa := by
  refine ⟨convert_zero 0 0, fun s e m => ⟨fun hzero => ?_, ?_⟩⟩
  · by_contra hm
    exact magnitude_convert_ne_zero s e hm hzero
  · rintro rfl
    exact magnitude_convert_zero s e

end Sys2Proof.Machine

/-! PROOFS. FieldDecoder: the values of R91 to R96, the standard readings of R103 and the element-wise decoding of
R98. -/

namespace Sys2Proof.Machine

/-! ### Chunks read as numbers (R103) -/

/-- A byte below a bit vector is one digit more in base 256 (R33). -/
theorem toNat_append_byte {w : Nat} (x : BitVec w) (b : Byte) : (x ++ b).toNat = x.toNat * 256 + b.toNat := by
  rw [BitVec.toNat_append, ← Nat.shiftLeft_add_eq_or_of_lt b.isLt, Nat.shiftLeft_eq]

theorem be16_toNat (b0 b1 : Byte) : (be16 b0 b1).toNat = b0.toNat * 256 + b1.toNat :=
  toNat_append_byte b0 b1

theorem be32_toNat (b0 b1 b2 b3 : Byte) :
    (be32 b0 b1 b2 b3).toNat = ((b0.toNat * 256 + b1.toNat) * 256 + b2.toNat) * 256 + b3.toNat := by
  simp only [be32, toNat_append_byte]

/-- The sign of a big-endian 16-bit quantity is bit 7 of its first byte. -/
theorem be16_toInt (b0 b1 : Byte) :
    (be16 b0 b1).toInt = (b0.toNat * 256 + b1.toNat : Int) - if 0x80 ≤ b0.toNat then 65536 else 0 := by
  have h1 := b1.isLt
  rw [BitVec.toInt_eq_toNat_cond, be16_toNat]
  split <;> split <;> omega

/-- The sign of a big-endian 32-bit quantity is bit 7 of its first byte. -/
theorem be32_toInt (b0 b1 b2 b3 : Byte) :
    (be32 b0 b1 b2 b3).toInt = (((b0.toNat * 256 + b1.toNat) * 256 + b2.toNat) * 256 + b3.toNat : Int) -
      if 0x80 ≤ b0.toNat then 4294967296 else 0 := by
  have h1 := b1.isLt
  have h2 := b2.isLt
  have h3 := b3.isLt
  rw [BitVec.toInt_eq_toNat_cond, be32_toNat]
  split <;> split <;> omega

/-- Settles O20: a chunk's value is its bytes side by side, whose readings are those of R33. -/
theorem chunksMatchStandardInterpretation : Obligations.ChunksMatchStandardInterpretation :=
  ⟨fun b0 b1 => ⟨.int16 (be16 b0 b1), rfl, congrArg some (be16_toInt b0 b1)⟩,
   fun b0 b1 b2 b3 => ⟨.int32 (be32 b0 b1 b2 b3), rfl, congrArg some (be32_toInt b0 b1 b2 b3)⟩,
   fun b0 b1 b2 b3 => ⟨be32 b0 b1 b2 b3, rfl, be32_toNat b0 b1 b2 b3⟩⟩

/-! ### Element by element (R98) -/

/-- Only NoData and BitArray have chunks without a value (R91, R92). -/
theorem elementOf_ne_nothing {t : DataType} (hn : t ≠ .noData) (hb : t ≠ .bitArray) (c : Chunk) :
    elementOf t c ≠ .nothing := by
  cases t <;> simp only [elementOf]
  case noData => exact absurd rfl hn
  case bitArray => exact absurd rfl hb
  case int16 => unfold elementInt16; split <;> simp
  case int32 => unfold elementInt32; split <;> simp
  case real32 => unfold elementReal32; split <;> simp
  case real64 => unfold elementReal64; split <;> simp
  case ascii =>
    unfold elementAscii
    split
    · split <;> simp
    · simp

/-- Where no chunk is without a value, a decoded record's values are what its chunks emit, chunk by chunk. -/
theorem decodeChunks_ok_map {f : Chunk → Element} (hf : ∀ c, f c ≠ .nothing) :
    ∀ {cs : List Chunk} {vs : List DecodedValue}, decodeChunks f cs = .ok vs → cs.map f = vs.map .emit
  | [], _, h => by
    cases h
    rfl
  | c :: cs, _, h => by
    rcases decodeChunks_ok_cons h with ⟨hc, _⟩ | ⟨v, vs', hc, hcs, rfl⟩
    · exact absurd hc (hf c)
    · rw [List.map_cons, List.map_cons, hc, decodeChunks_ok_map hf hcs]

/-- Settles O21: the emitted values and the chunks are lists of the same shape. -/
theorem decodingIsElementWise : Obligations.DecodingIsElementWise := by
  refine ⟨fun cs => ⟨decodeChunks_nothing fun _ _ => rfl, decodeChunks_nothing fun _ _ => rfl⟩, ?_⟩
  intro t cs vs hn hb hok
  have hmap := decodeChunks_ok_map (elementOf_ne_nothing hn hb) hok
  refine ⟨by simpa using (congrArg List.length hmap).symm, fun i c hc => ?_⟩
  have hi : (vs.map Element.emit)[i]? = some (elementOf t c) := by rw [← hmap, List.getElem?_map, hc]; rfl
  rw [List.getElem?_map, Option.map_eq_some_iff] at hi
  obtain ⟨v, hv, he⟩ := hi
  exact ⟨v, hv, he.symm⟩

/-! ### A record by its tag (R91 to R94, R96) -/

/-- FD dispatches on the tag alone (R90). -/
theorem fdDecode_of_tag {r : Record} {t : DataType} (h : r.dataType = Config.tagCode t) :
    fdDecode r = decodeChunks (elementOf t) r.payload := by
  unfold fdDecode
  rw [h, tagOfCode_tagCode]

/-- The chunk of a 64-bit word's bytes, the most significant first, is converted as that word (R55, R96). -/
theorem elementReal64_bytes64 (c : BitVec 64) : elementReal64 (bytes64 c) = .emit (.float64 (convertPattern c)) :=
  congrArg (fun v => Element.emit (.float64 (convertPattern v))) (be64_extract c)

/-- Settles O58: the tag selects the element operation, and each chunk has the form that the operation reads. -/
theorem fdDecodesByTag : Obligations.FdDecodesByTag := by
  refine fun r => ⟨fun ht => ?_, fun ht => ?_, fun ps ht hp => ?_, fun ps ht hp => ?_, fun cs ht hp => ?_⟩ <;>
    rw [fdDecode_of_tag ht]
  · exact decodeChunks_nothing fun _ _ => rfl
  · exact decodeChunks_nothing fun _ _ => rfl
  · rw [hp]
    exact decodeChunks_emit fun _ _ => rfl
  · rw [hp]
    exact decodeChunks_emit fun _ _ => rfl
  · rw [hp]
    exact decodeChunks_emit fun c _ => elementReal64_bytes64 c

end Sys2Proof.Machine

/-! PROOFS. RecordDecoder: the header at the cursor (R112) and the record that RF frames (R117). -/

namespace Sys2Proof.Machine

/-- A record that RF frames lies inside the source and has a legal tag and length; it is the record at the cursor, and
the new cursor is behind it (R119). -/
theorem rfRead_ok {s : State} {r : Record} {p : Nat} (h : rfRead s = .ok (r, p)) :
    ∃ t, s.byte (s.pos + 3) = Config.tagCode t ∧ legalLength t (s.word16 s.pos) = true ∧
      s.pos + (s.word16 s.pos).toNat ≤ s.n ∧ r = recordAt s t (s.word16 s.pos) (s.byte (s.pos + 2)) ∧
      p = s.pos + (s.word16 s.pos).toNat := by
  unfold rfRead at h
  by_cases h4 : s.pos + 4 ≤ s.n
  · simp only [State.header_of_le h4] at h
    rcases rfFrame_cases s ⟨s.word16 s.pos, s.byte (s.pos + 2), s.byte (s.pos + 3)⟩ with
      ⟨-, he⟩ | ⟨t, ht, ⟨-, he⟩ | ⟨-, -, he⟩ | ⟨hl, hn, he⟩⟩ <;> rw [he] at h <;> cases h
    exact ⟨t, ht, hl, hn, rfl, rfl⟩
  · simp only [State.header_of_lt (Nat.lt_of_not_le h4)] at h
    cases h

/-- Settles O26: a legal length is at least 4, and the record is the one at the cursor. -/
theorem rfRecordsAreWellFormed : Obligations.RfRecordsAreWellFormed := by
  intro s r p h
  obtain ⟨t, -, hlegal, hn, rfl, rfl⟩ := rfRead_ok h
  exact ⟨recordAt_wf hlegal, rfl, rfl, Nat.add_le_add_left (legalLength_ge hlegal) s.pos, hn⟩

/-- Settles O28: the length word is the signed big-endian reading of the first two bytes. -/
theorem headerFieldsAtCursor : Obligations.HeaderFieldsAtCursor :=
  fun s h => ⟨_, State.header_of_le h, be16_toInt (s.byte s.pos) (s.byte (s.pos + 1)), rfl, rfl⟩

end Sys2Proof.Machine

/-! PROOFS. Driver: the entry to Error (R136). -/

namespace Sys2Proof.Machine

/-- Without a call a step is one iteration of SQ.STEP, whichever row the header at the cursor selects (R131). -/
theorem step_eq_execSqStep {s : State} (hc : s.call = none) : step s = execSqStep s := by
  rw [step_of_noCall hc]
  by_cases h4 : s.pos + 4 ≤ s.n
  · have hh := State.header_of_le h4
    cases hd : decodeHeader ⟨s.word16 s.pos, s.byte (s.pos + 2), s.byte (s.pos + 3)⟩ with
    | error r =>
      rw [State.fetch_of_error hh hd]
      rfl
    | ok i =>
      obtain ⟨t, ht, he⟩ := exec_decodeHeader hd s
      rw [State.fetch_of_header hh hd, he]
      by_cases hr : s.st = .reading
      · rw [execSqStep_tag hr h4 ht, ← ht]
      · rw [recordStep_disabled hr, execSqStep_disabled hr]
  · rw [State.fetch_of_noHeader (State.header_of_lt (Nat.lt_of_not_le h4))]
    rfl

/-- Everything a step of the sequencer in Reading can complete with: the entry to Error, or the commit of the record
at the cursor. -/
theorem step_reading_cases {s t : State} (hc : s.call = none) (hr : s.st = .reading) (h : step s = .next t) :
    (∃ k, t = errored s k) ∨
    (∃ tag name, s.byte (s.pos + 3) = Config.tagCode tag ∧ s.fits tag (s.word16 s.pos) ∧
      s.clean tag (s.word16 s.pos) ∧ s.nameOf (s.byte (s.pos + 2)) = some name ∧
      t = committed s (s.byte (s.pos + 2)) name (fieldValues s tag (s.word16 s.pos)) (s.word16 s.pos)) := by
  rw [step_eq_execSqStep hc] at h
  by_cases hp : s.pos ≤ s.n
  · rcases execSqStep_cases hr hp with ⟨k, he⟩ | ⟨tag, name, ht, hf, hcl, hn, he⟩ <;> rw [he] at h <;> cases h
    · exact .inl ⟨k, rfl⟩
    · exact .inr ⟨tag, name, ht, hf, hcl, hn, rfl⟩
  · rw [execSqStep_beyond hr (Nat.lt_of_not_le hp)] at h
    cases h

/-- A commit leaves the run in Reading or, after the terminator, in Done (R135). -/
theorem committed_st_ne_error (s : State) (rt : Byte) (name : String) (vs : List DecodedValue) (l : BitVec 16) :
    (committed s rt name vs l).st ≠ .error := by
  unfold committed
  split <;> simp

/-- Settles O43: a step is an entry to Error or a commit, and a commit is not in Error. -/
theorem errorEntryIsPrecise : Obligations.ErrorEntryIsPrecise := by
  intro s t hc hr h ht
  rcases step_reading_cases hc hr h with ⟨k, rfl⟩ | ⟨tag, name, -, -, -, -, rfl⟩
  · exact ⟨k, rfl⟩
  · exact (committed_st_ne_error _ _ _ _ _ ht).elim

end Sys2Proof.Machine

/-! PROOFS. Encodings: a header's bytes and its row, a chunk's bytes and FC.CONVERT (R51 to R58). -/

namespace Sys2Proof

/-! ### One equation per format -/

/-- Bytes in the record format decode as their header does (R52). -/
theorem decode_record_cons (b0 b1 b2 b3 : Byte) (rest : List Byte) :
    decode .record (b0 :: b1 :: b2 :: b3 :: rest) = (decodeHeader ⟨be16 b0 b1, b2, b3⟩).map fun i => (i, rest) :=
  congrArg (fun h => (decodeHeader h).map fun i => (i, rest)) (Header.ofWord_be32 b0 b1 b2 b3)

/-- The bytes of a header decode as the header. -/
theorem decode_headerBytes (h : Header) (rest : List Byte) :
    decode .record (h.bytes ++ rest) = (decodeHeader h).map fun i => (i, rest) := by
  refine (decode_record_cons _ _ h.recordType h.dataType rest).trans ?_
  rw [be16_extract]

/-- The bytes of a chunk decode to FC.CONVERT of its fields (R56). -/
theorem decode_bytes64 (c : BitVec 64) (rest : List Byte) :
    decode .cf64 (bytes64 c ++ rest) = .ok (decodeCf64 c, rest) :=
  congrArg (fun c => Except.ok (decodeCf64 c, rest)) (be64_extract c)

/-! ### The FD rows, by their tag -/

theorem encode_ofTag (t : DataType) (l : BitVec 16) (rt : Byte) :
    encode (Instr.ofTag t l rt) = Header.bytes ⟨l, rt, Config.tagCode t⟩ := by cases t <;> rfl

theorem format_ofTag (t : DataType) (l : BitVec 16) (rt : Byte) : (Instr.ofTag t l rt).format = .record := by
  cases t <;> rfl

theorem wf_ofTag (t : DataType) (l : BitVec 16) (rt : Byte) : (Instr.ofTag t l rt).wf = wfRecord t l rt := by
  cases t <;> rfl

/-- Every operation is an FD row, the terminator, FC.CONVERT or one of the two rows without a word. -/
theorem Instr.cases_ofTag (i : Instr) :
    (∃ t l rt, i = Instr.ofTag t l rt) ∨ (∃ l t, i = .sqTerm l t) ∨ (∃ s e m, i = .fcConvert s e m) ∨
      i = .rfRead ∨ i = .sqStep := by
  cases i with
  | fdNodata l rt => exact .inl ⟨.noData, l, rt, rfl⟩
  | fdBitarray l rt => exact .inl ⟨.bitArray, l, rt, rfl⟩
  | fdInt16 l rt => exact .inl ⟨.int16, l, rt, rfl⟩
  | fdInt32 l rt => exact .inl ⟨.int32, l, rt, rfl⟩
  | fdReal32 l rt => exact .inl ⟨.real32, l, rt, rfl⟩
  | fdReal64 l rt => exact .inl ⟨.real64, l, rt, rfl⟩
  | fdAscii l rt => exact .inl ⟨.ascii, l, rt, rfl⟩
  | sqTerm l t => exact .inr (.inl ⟨l, t, rfl⟩)
  | fcConvert s e m => exact .inr (.inr (.inl ⟨s, e, m, rfl⟩))
  | rfRead => exact .inr (.inr (.inr (.inl rfl)))
  | sqStep => exact .inr (.inr (.inr (.inr rfl)))

/-! ### The round trips -/

/-- Settles O1: the encoder writes the header or the chunk whose decoding is known; an FD row's type is not the
terminator's, for the row is well formed. -/
theorem decodeOfEncode : Obligations.DecodeOfEncode := by
  intro i rest hwf hrf hsq
  rcases i.cases_ofTag with ⟨t, l, rt, rfl⟩ | ⟨l, t, rfl⟩ | ⟨s, e, m, rfl⟩ | rfl | rfl
  · rw [wf_ofTag, wfRecord, Bool.and_eq_true, decide_eq_true_eq] at hwf
    rw [format_ofTag, encode_ofTag, decode_headerBytes, decodeHeader_ofTag t l rt hwf.2]
    rfl
  · refine (decode_headerBytes _ rest).trans ?_
    rw [decodeHeader_term]
    rfl
  · refine (decode_bytes64 _ rest).trans ?_
    rw [decodeCf64_append]
  · exact absurd rfl hrf
  · exact absurd rfl hsq

/-- A header that decodes is what its operation encodes to. -/
theorem encode_of_decodeHeader {h : Header} {i : Instr} (hd : decodeHeader h = .ok i) :
    i.format = .record ∧ encode i = h.bytes := by
  obtain ⟨l, rt, dt⟩ := h
  obtain ⟨t, rfl, ⟨rfl, rfl⟩ | ⟨-, rfl⟩⟩ := decodeHeader_cases hd
  · exact ⟨rfl, rfl⟩
  · exact ⟨format_ofTag t l rt, encode_ofTag t l rt⟩

theorem headerBytes_be16 (b0 b1 b2 b3 : Byte) : Header.bytes ⟨be16 b0 b1, b2, b3⟩ = [b0, b1, b2, b3] :=
  congrArg (· ++ [b2, b3]) (bytes16_be16 b0 b1)

/-- A chunk is what FC.CONVERT of its fields encodes to. -/
theorem encode_decodeCf64 (c : BitVec 64) : encode (decodeCf64 c) = bytes64 c :=
  congrArg bytes64 (cf64_fields c)

/-- Settles O2: four bytes are those of their header, eight those of their chunk, and fewer do not decode. -/
theorem encodeOfDecode : Obligations.EncodeOfDecode := by
  intro f bytes rest i h
  match f, bytes, h with
  | .record, b0 :: b1 :: b2 :: b3 :: bs, h =>
    rw [decode_record_cons] at h
    cases hd : decodeHeader ⟨be16 b0 b1, b2, b3⟩ with
    | error r => rw [hd] at h; cases h
    | ok j =>
      rw [hd] at h
      cases h
      obtain ⟨hf, he⟩ := encode_of_decodeHeader hd
      rw [he, headerBytes_be16]
      exact ⟨hf, rfl⟩
  | .cf64, b0 :: b1 :: b2 :: b3 :: b4 :: b5 :: b6 :: b7 :: bs, h =>
    cases h
    rw [encode_decodeCf64, bytes64_be64]
    exact ⟨rfl, rfl⟩
  | .record, [], h | .record, [_], h | .record, [_, _], h | .record, [_, _, _], h => cases h
  | .cf64, [], h | .cf64, [_], h | .cf64, [_, _], h | .cf64, [_, _, _], h | .cf64, [_, _, _, _], h
  | .cf64, [_, _, _, _, _], h | .cf64, [_, _, _, _, _, _], h | .cf64, [_, _, _, _, _, _, _], h => cases h

theorem tagOfCode_eq_none {b : Byte} (h : ∀ t, b ≠ Config.tagCode t) : tagOfCode b = none :=
  Option.eq_none_iff_forall_ne_some.2 fun t ht => h t (tagCode_of_tagOfCode b t ht)

/-- Settles O3: no tag has the code, so the header selects no row. -/
theorem illegalTagRejected : Obligations.IllegalTagRejected := by
  intro b0 b1 b2 b3 rest h
  rw [decode_record_cons, decodeHeader, tagOfCode_eq_none h]
  rfl

/-- Settles O4, by evaluating the decoder on the five words. -/
theorem sampleWordsDecode : Obligations.SampleWordsDecode := ⟨rfl, rfl, rfl, rfl, rfl⟩

end Sys2Proof

/-! PROOFS. FloatConverter: the answer of FC.CONVERT (R70), the range of its results (R79), their rounding (R75, D3) and
the redundancy of unnormalised inputs (R81). -/

namespace Sys2Proof.Machine

/-- Settles O5: FC.CONVERT is defined as this answer. -/
theorem fcConvertAnswers : Obligations.FcConvertAnswers := fun _ _ _ _ => rfl

/-- Settles O7: a zero mantissa is the converter's first case. -/
theorem fcSignOfZero : Obligations.FcSignOfZero := convert_zero

/-- Settles O8: the biased exponent is `4E - lz + 766` and the carry. -/
theorem fcResultIsNormal : Obligations.FcResultIsNormal := by
  intro s e m hm
  rw [convert_exponent s e hm]
  exact ⟨(biasedExponent_bounds e hm).1, (biasedExponent_bounds e hm).2, convert_sign s e hm⟩

/-! ### Rounding (R75, D3) -/

section
variable (s : BitVec 1) (e : BitVec 7) {m : BitVec 56} (hm : m ≠ 0)

/-- The unit of the 53-bit quotient, scaled by `2^364`. -/
def quotientUnit (e : BitVec 7) (m : BitVec 56) : Nat := 2 ^ (4 * e.toNat + 55 - clz56 m)

theorem quotientUnit_pos (e : BitVec 7) (m : BitVec 56) : 0 < quotientUnit e m := Nat.two_pow_pos _

include hm

/-- The unit in the last place of the result: the quotient's, doubled by a carry. -/
theorem convert_ulp :
    2 ^ (((convert s e m).extractLsb' 52 11).toNat - 711) = (1 + carry m) * quotientUnit e m := by
  have hz := clz56_le hm
  rw [convert_exponent s e hm, biasedExponent, quotientUnit, carry]
  split
  · rw [show 4 * e.toNat + 766 - clz56 m + 1 - 711 = 4 * e.toNat + 55 - clz56 m + 1 by omega, pow_succ]
    ring
  · rw [show 4 * e.toNat + 766 - clz56 m + 0 - 711 = 4 * e.toNat + 55 - clz56 m by omega]
    ring

/-- The last bit of the result is that of its significand. -/
theorem convert_lsb : (convert s e m).getLsbD 0 = decide (finalSignificand m % 2 = 1) := by
  rw [convert_of_ne s e hm, BitVec.getLsbD_append, if_pos (by decide), BitVec.getLsbD_ofNat, Nat.testBit_zero]
  rfl

end

/-- The quotient is at most half a unit, four eighths, away from the normalised mantissa. -/
theorem roundedSignificand_near (m : BitVec 56) :
    8 * roundedSignificand m ≤ (normalised m).toNat + 4 ∧ (normalised m).toNat ≤ 8 * roundedSignificand m + 4 := by
  have := roundedSignificand_cases m
  simp only at this
  omega

/-- At a tie, half the result's unit away, the significand is even; after a carry it is `2^52`. -/
theorem finalSignificand_even_of_tie {m : BitVec 56}
    (h : 8 * roundedSignificand m = (normalised m).toNat + 4 * (1 + carry m) ∨
      (normalised m).toNat = 8 * roundedSignificand m + 4 * (1 + carry m)) : finalSignificand m % 2 = 0 := by
  have hcases := roundedSignificand_cases m
  simp only at hcases
  unfold carry at h
  unfold finalSignificand
  split at h <;> split <;> omega

/-- A result whose fraction is 0 is at most a quarter of its unit above the normalised mantissa: a carry has doubled the
unit, or the quotient is `2^52` and no greater than the mantissa. -/
theorem roundedSignificand_le_quarter {m : BitVec 56} (hm : m ≠ 0) (h : finalSignificand m = 2 ^ 52) :
    8 * roundedSignificand m ≤ (normalised m).toNat + 2 * (1 + carry m) := by
  have hle := (roundedSignificand_near m).1
  have hnm := le_normalised hm
  rw [← normalised_toNat hm] at hnm
  unfold finalSignificand at h
  unfold carry
  split at h <;> rename_i hq
  · rw [if_pos hq]
    exact hle
  · omega

/-- Settles O9: every clause, divided by the unit of the quotient, compares the rounded significand with the
normalised mantissa. -/
theorem fcRoundsToNearestEven : Obligations.FcRoundsToNearestEven := by
  intro s e m hm
  have hU := quotientUnit_pos e m
  have hX : 8 * fcScaledExact e m = (normalised m).toNat * quotientUnit e m := fcScaledExact_eq e hm
  have hR : fcScaledResult (convert s e m) = roundedSignificand m * quotientUnit e m := fcScaledResult_convert s e hm
  have hc := Nat.zero_le (carry m * quotientUnit e m)
  have hle := Nat.mul_le_mul_right (quotientUnit e m) (roundedSignificand_near m).1
  have hge := Nat.mul_le_mul_right (quotientUnit e m) (roundedSignificand_near m).2
  simp only [convert_ulp s e hm, convert_lsb s e hm, hR, decide_eq_false_iff_not]
  refine ⟨by linarith, by linarith, fun htie => ?_, fun hfrac => ?_⟩
  · have heven := finalSignificand_even_of_tie (htie.imp
      (fun h => Nat.eq_of_mul_eq_mul_right hU (by linarith)) fun h => Nat.eq_of_mul_eq_mul_right hU (by linarith))
    omega
  · have hsig := convert_significand s e hm
    rw [hfrac] at hsig
    have hquarter := Nat.mul_le_mul_right (quotientUnit e m) (roundedSignificand_le_quarter hm hsig.symm)
    linarith

/-- A mantissa of at most 53 significant bits is a multiple of 8 once it is normalised. -/
theorem eight_dvd_normalised {m : BitVec 56} {j k : Nat} (hm : m ≠ 0) (hj : j < 2 ^ 53) (hjk : m.toNat = j * 2 ^ k) :
    8 ∣ (normalised m).toNat := by
  have hle := le_normalised hm
  rw [hjk, mul_assoc, ← pow_add] at hle
  have h3 : 3 ≤ k + clz56 m := by
    by_contra hlt
    have hpow : 2 ^ (k + clz56 m) ≤ 2 ^ 2 := Nat.pow_le_pow_right (by decide) (by omega)
    have := Nat.mul_le_mul (Nat.le_sub_one_of_lt hj) hpow
    omega
  rw [normalised_toNat hm, hjk, mul_assoc, ← pow_add]
  exact Dvd.dvd.mul_left (Nat.pow_dvd_pow 2 h3) j

/-- Settles O10: the three discarded bits are 0. -/
theorem fcExactUpTo53Bits : Obligations.FcExactUpTo53Bits := by
  intro s e m j k hm hj hjk
  have hdvd := eight_dvd_normalised hm hj hjk
  have hcases := roundedSignificand_cases m
  simp only at hcases
  have hq : 8 * roundedSignificand m = (normalised m).toNat := by omega
  have hX := fcScaledExact_eq e hm
  rw [← hq, mul_assoc, ← fcScaledResult_convert s e hm] at hX
  omega

/-! ### Unnormalised inputs (R81) -/

section
variable {m : BitVec 56} (hm : m ≠ 0) (hlt : m.toNat < 2 ^ 52)
include hlt

theorem toNat_shiftLeft_four : (m <<< 4).toNat = 2 * (2 * (2 * (2 * m.toNat))) := by
  rw [BitVec.toNat_shiftLeft, Nat.shiftLeft_eq]
  omega

include hm

theorem shiftLeft_four_ne : m <<< 4 ≠ 0 := by
  intro h
  have h0 := toNat_shiftLeft_four hlt
  rw [h, show (0 : BitVec 56).toNat = 0 from rfl] at h0
  have := toNat_pos_of_ne hm
  omega

/-- A hex digit more has four leading zeros less. -/
theorem clz56_shiftLeft_four : clz56 m = clz56 (m <<< 4) + 4 := by
  have h0 := toNat_pos_of_ne hm
  have hlog : (m <<< 4).toNat.log2 = m.toNat.log2 + 4 := by
    rw [toNat_shiftLeft_four hlt, Nat.log2_two_mul (by omega), Nat.log2_two_mul (by omega),
      Nat.log2_two_mul (by omega), Nat.log2_two_mul h0]
  have := log2_le (shiftLeft_four_ne hm hlt)
  rw [clz56_of_ne hm, clz56_of_ne (shiftLeft_four_ne hm hlt)]
  omega

theorem normalised_shiftLeft_four : normalised (m <<< 4) = normalised m := by
  rw [normalised, normalised, clz56_shiftLeft_four hm hlt, Nat.add_comm, BitVec.shiftLeft_add]

end

/-- Settles O11: both inputs have one normalised mantissa and one exponent `4E - lz`. -/
theorem fcUnnormalisedInputsAgree : Obligations.FcUnnormalisedInputsAgree := by
  intro s e m he hlt
  by_cases hm : m = 0
  · subst hm
    rw [show (0 : BitVec 56) <<< 4 = 0 from rfl, convert_zero, convert_zero]
  · have hround : roundedSignificand (m <<< 4) = roundedSignificand m := by
      rw [roundedSignificand, normalised_shiftLeft_four hm hlt, roundedSignificand]
    have hexp : 4 * (e - 1).toNat + 766 - clz56 (m <<< 4) = 4 * e.toNat + 766 - clz56 m := by
      have h1 : (e - 1).toNat = e.toNat - 1 := BitVec.toNat_sub_of_le he
      rw [h1, clz56_shiftLeft_four hm hlt]
      omega
    rw [convert_of_ne s _ (shiftLeft_four_ne hm hlt), convert_of_ne s e hm]
    simp only [biasedExponent, carry, finalSignificand, hround, hexp]

end Sys2Proof.Machine

/-! PROOFS. FieldDecoder: the result of each row (R91 to R97), FD used alone (R100), the element datapath (R19) and FD's
errors behind RF (R155). -/

namespace Sys2Proof.Machine

/-! ### Bit 7 of a byte (D8) -/

theorem byte_getLsbD_seven (b : Byte) : b.getLsbD 7 = decide (0x80 ≤ b.toNat) :=
  (BitVec.msb_eq_getLsbD_last b).symm.trans (BitVec.msb_eq_decide b)

/-- Only an ASCII record can be one that FD does not accept (R166). -/
theorem State.clean_of_ne_ascii {t : DataType} (s : State) (l : BitVec 16) (h : t ≠ .ascii) : s.clean t l :=
  fun ht => absurd ht h

/-! ### The rows, run as their record step -/

section
variable {s : State} {t : DataType} {l : BitVec 16} {rt : Byte}

/-- An FD row on a legal, decodable record with a name commits the record's values. -/
theorem exec_ofTag_commits {name : String} (hf : s.fits t l) (hc : s.clean t l) (hn : s.nameOf rt = some name) :
    exec (Instr.ofTag t l rt) s = .next (committed s rt name (fieldValues s t l) l) := by
  rw [exec_ofTag, recordStep_commits hf hc hn]

/-- The only length legal for NoData is the header's alone (C4). -/
theorem legalLength_noData (h : legalLength .noData l = true) : l = 4 := by
  have h0 : l.toNat - 4 = 0 := Nat.zero_dvd.1 (legalLength_dvd h)
  have h4 := legalLength_ge h
  exact BitVec.eq_of_toNat_eq (show l.toNat = 4 by omega)

end

/-- Settles O12: FD accepts every record but ASCII's, and NoData's only legal length is 4. -/
theorem noDataRecordResult : Obligations.NoDataRecordResult :=
  fun s l _ _ hf hn => ⟨legalLength_noData hf.2.1,
    exec_ofTag_commits (t := .noData) hf (s.clean_of_ne_ascii l (by decide)) hn⟩

/-- Settles O13: FD accepts every BitArray record and gives no value. -/
theorem bitArrayRecordResult : Obligations.BitArrayRecordResult :=
  fun s l _ _ hf hn => exec_ofTag_commits (t := .bitArray) hf (s.clean_of_ne_ascii l (by decide)) hn

/-- Settles O14: FD accepts every Int16 record. -/
theorem int16RecordResult : Obligations.Int16RecordResult :=
  fun s l _ _ hf hn => exec_ofTag_commits (t := .int16) hf (s.clean_of_ne_ascii l (by decide)) hn

/-- Settles O15: FD accepts every Int32 record. -/
theorem int32RecordResult : Obligations.Int32RecordResult :=
  fun s l _ _ hf hn => exec_ofTag_commits (t := .int32) hf (s.clean_of_ne_ascii l (by decide)) hn

/-- Settles O16: FD accepts every Real32 record. -/
theorem real32RecordResult : Obligations.Real32RecordResult :=
  fun s l _ _ hf hn => exec_ofTag_commits (t := .real32) hf (s.clean_of_ne_ascii l (by decide)) hn

/-- Settles O17: FD accepts every Real64Custom record. -/
theorem real64RecordResult : Obligations.Real64RecordResult :=
  fun s l _ _ hf hn => exec_ofTag_commits (t := .real64) hf (s.clean_of_ne_ascii l (by decide)) hn

/-- Settles O18: bytes below 0x80 have bit 7 clear. -/
theorem asciiRecordResult : Obligations.AsciiRecordResult := by
  intro s l rt name hf hn hlow
  refine exec_ofTag_commits (t := .ascii) hf (fun _ i hi => ?_) hn
  rw [byte_getLsbD_seven, decide_eq_false_iff_not, Nat.not_le]
  exact hlow i hi

/-- Settles O19: a byte of 0x80 or more has bit 7 set. -/
theorem asciiHighByteFails : Obligations.AsciiHighByteFails := by
  intro s l rt i hf hi hhigh
  refine recordStep_dirty hf hi ?_
  rw [byte_getLsbD_seven, decide_eq_true_eq]
  exact hhigh

/-! ### FD used alone, and the element datapath -/

theorem fdAlone_unknownTag {r : Record} (h : 7 ≤ r.dataType.toNat) : fdAlone r = .err .unsupportedDataType := by
  rw [fdAlone, (tagOfCode_eq_none_iff _).2 h]

/-- Settles O22: the call is answered with FD's error. -/
theorem fdAloneRejectsUnknownTag : Obligations.FdAloneRejectsUnknownTag := by
  intro s r hc ht
  rw [step_of_call hc, serve, serveDecode, fdAlone_unknownTag ht]
  rfl

/-- The element datapath on a legal tag is the tag's element operation on the left-aligned chunk. -/
theorem elementDatapath_tagCode (t : DataType) (c : BitVec 64) :
    elementDatapath (Config.tagCode t) c = (elementOf t ((bytes64 c).take (Config.width t))).out := by
  rw [elementDatapath, elementOfBus, tagOfCode_tagCode]
  rfl

theorem elementDatapath_unknownTag {dt : Byte} (h : 7 ≤ dt.toNat) (c : BitVec 64) :
    elementDatapath dt c = ⟨false, 0, 0, 2⟩ := by
  rw [elementDatapath, elementOfBus, (tagOfCode_eq_none_iff _).2 h]
  rfl

/-- The first two bytes of a chunk input are its upper 16 bits. -/
theorem be16_upper (c : BitVec 64) : be16 (c.extractLsb' 56 8) (c.extractLsb' 48 8) = c.extractLsb' 48 16 :=
  BitVec.extractLsb'_append_extractLsb'_eq_extractLsb' rfl

/-- The first four bytes of a chunk input are its upper 32 bits. -/
theorem be32_upper (c : BitVec 64) :
    be32 (c.extractLsb' 56 8) (c.extractLsb' 48 8) (c.extractLsb' 40 8) (c.extractLsb' 32 8) = c.extractLsb' 32 32 := by
  have hlow : be16 (c.extractLsb' 40 8) (c.extractLsb' 32 8) = c.extractLsb' 32 16 :=
    BitVec.extractLsb'_append_extractLsb'_eq_extractLsb' rfl
  rw [be32_eq_append, be16_upper, hlow]
  exact BitVec.extractLsb'_append_extractLsb'_eq_extractLsb' rfl

/-- The datapath's outputs for an ASCII chunk, whose one byte is the input's first (R97). -/
theorem elementDatapath_ascii (c : BitVec 64) :
    elementDatapath 0x06 c =
      if c.getLsbD 63 then ⟨false, 0, 0, 5⟩ else ⟨true, 5, (c.extractLsb' 56 8).zeroExtend 64, 0⟩ := by
  have hbit : (c.extractLsb' 56 8).getLsbD 7 = c.getLsbD 63 := BitVec.getLsbD_extractLsb' 56 8 c 7
  refine (elementDatapath_tagCode .ascii c).trans ?_
  change (if (c.extractLsb' 56 8).getLsbD 7 then Element.err .invalidEncoding
    else .emit (.character (c.extractLsb' 56 8))).out = _
  rw [hbit]
  split <;> rfl

/-- Settles O23, tag by tag: the chunk's bits, through the tag's element operation. -/
theorem elementDatapathOutputs : Obligations.ElementDatapathOutputs := fun c =>
  ⟨elementDatapath_tagCode .noData c, elementDatapath_tagCode .bitArray c,
   (elementDatapath_tagCode .int16 c).trans (congrArg (fun v => (Element.emit (.int16 v)).out) (be16_upper c)),
   (elementDatapath_tagCode .int32 c).trans (congrArg (fun v => (Element.emit (.int32 v)).out) (be32_upper c)),
   (elementDatapath_tagCode .real32 c).trans (congrArg (fun v => (Element.emit (.float32 v)).out) (be32_upper c)),
   (elementDatapath_tagCode .real64 c).trans (congrArg Element.out (elementReal64_bytes64 c)),
   elementDatapath_ascii c, fun _ h => elementDatapath_unknownTag h c⟩

/-! ### FD behind RF (R155) -/

theorem mem_payload_recordAt_ascii {s : State} {l : BitVec 16} {rt : Byte} {b : Byte} :
    [b] ∈ (recordAt s .ascii l rt).payload ↔ ∃ i < l.toNat - 4, s.byte (s.pos + 4 + i) = b := by
  simp [recordAt, Config.width]

/-- Settles O27: FD decodes a framed record unless it is an ASCII record with a byte that has bit 7 set. -/
theorem fdErrorsBehindRf : Obligations.FdErrorsBehindRf := by
  intro s r p h
  obtain ⟨t, -, -, -, rfl, -⟩ := rfRead_ok h
  have htag : (recordAt s t (s.word16 s.pos) (s.byte (s.pos + 2))).dataType = Config.tagCode t := rfl
  rw [fdDecode_of_tag htag]
  rcases s.clean_or t (s.word16 s.pos) with hc | ⟨rfl, i, hi, hb⟩
  · rw [decodeChunks_recordAt hc]
    refine ⟨nofun, fun k => ⟨nofun, ?_⟩⟩
    rintro ⟨-, ht, b, hmem, hhigh⟩
    obtain rfl := tagCode_injective ht
    obtain ⟨i, hi, rfl⟩ := mem_payload_recordAt_ascii.1 hmem
    have := hc rfl i hi
    rw [byte_getLsbD_seven, decide_eq_false_iff_not] at this
    exact absurd hhigh this
  · rw [decodeChunks_recordAt_dirty hi hb]
    rw [byte_getLsbD_seven, decide_eq_true_eq] at hb
    refine ⟨nofun, fun k => ⟨fun he => ?_, fun he => by rw [he.1]⟩⟩
    cases he
    exact ⟨rfl, rfl, _, mem_payload_recordAt_ascii.2 ⟨i, hi, rfl⟩, hb⟩

end Sys2Proof.Machine

/-! PROOFS. RecordDecoder: RF.READ used alone (R110 to R120). -/

namespace Sys2Proof.Machine

/-! ### The bytes of a legal tag -/

@[simp] theorem widthOfCode_tagCode (t : DataType) : widthOfCode (Config.tagCode t) = Config.width t := by
  cases t <;> rfl

@[simp] theorem tagAt_tagCode (t : DataType) : tagAt (Config.tagCode t) = t := by cases t <;> rfl

theorem tagCode_toNat_lt (t : DataType) : (Config.tagCode t).toNat < 7 := by cases t <;> decide

/-- A `dataType` byte below 7 is the code of a tag (R53). -/
theorem exists_tagCode_of_lt {b : Byte} (h : b.toNat < 7) : ∃ t, b = Config.tagCode t := by
  cases ht : tagOfCode b with
  | none => exact absurd h (Nat.not_lt.2 ((tagOfCode_eq_none_iff b).1 ht))
  | some t => exact ⟨t, tagCode_of_tagOfCode b t ht⟩

theorem legalLength_eq_false_iff (t : DataType) (l : BitVec 16) :
    legalLength t l = false ↔ l.toInt < 4 ∨ ¬ (Config.width t : Int) ∣ l.toInt - 4 := by
  rw [← Bool.not_eq_true, legalLength_iff, not_and_or, not_le]

/-! ### RF.READ in Reading -/

section
variable {s : State}

theorem execRfRead_disabled (hr : s.st ≠ .reading) : execRfRead s = .next s.dismiss := if_pos hr

theorem execRfRead_beyond (hr : s.st = .reading) (hp : s.n < s.pos) : execRfRead s = .fault .cursorBeyondSource := by
  rw [execRfRead, if_neg (by simp [hr]), if_pos hp]

theorem execRfRead_error {k : ErrKind} (hr : s.st = .reading) (hp : s.pos ≤ s.n) (h : rfRead s = .error k) :
    execRfRead s = .next (s.answer (.error k)) := by
  rw [execRfRead, if_neg (by simp [hr]), if_neg (Nat.not_lt.2 hp), h]

theorem execRfRead_ok {r : Record} {p : Nat} (hr : s.st = .reading) (hp : s.pos ≤ s.n) (h : rfRead s = .ok (r, p)) :
    execRfRead s = .next ((s.hold r).answer (.record r p)) := by
  rw [execRfRead, if_neg (by simp [hr]), if_neg (Nat.not_lt.2 hp), h]

theorem rfRead_short (h : s.n < s.pos + 4) : rfRead s = .error .malformedHeader := by
  rw [rfRead, State.header_of_lt h]

theorem rfRead_header (h : s.pos + 4 ≤ s.n) :
    rfRead s = rfFrame s ⟨s.word16 s.pos, s.byte (s.pos + 2), s.byte (s.pos + 3)⟩ := by
  rw [rfRead, State.header_of_le h]

theorem rfRead_tag {t : DataType} (h : s.pos + 4 ≤ s.n) (ht : s.byte (s.pos + 3) = Config.tagCode t) :
    rfRead s = rfFrame s ⟨s.word16 s.pos, s.byte (s.pos + 2), Config.tagCode t⟩ := by
  rw [rfRead_header h, ht]

end

/-- Settles O24: the header's record is framed, and RF.READ answers with it. -/
theorem rfReadResult : Obligations.RfReadResult := by
  rintro s t l rt hr ⟨h4, rfl, rfl, ht⟩ hl hn
  exact execRfRead_ok hr (by omega) ((rfRead_tag h4 ht).trans (rfFrame_ok hl hn))

/-- Settles O25: each failure of RF's checks is answered. -/
theorem rfReadFailures : Obligations.RfReadFailures := by
  intro s hr hp
  refine ⟨fun hn => ?_, fun h4 ht => ?_, fun h4 ht hlen => ?_, fun h4 ht hlen hdvd hn => ?_⟩
  · exact execRfRead_error hr hp (rfRead_short hn)
  · exact execRfRead_error hr hp ((rfRead_header h4).trans (rfFrame_illegalTag ht))
  · obtain ⟨t, hdt⟩ := exists_tagCode_of_lt ht
    rw [hdt, widthOfCode_tagCode] at hlen
    exact execRfRead_error hr hp ((rfRead_tag h4 hdt).trans (rfFrame_corrupt ((legalLength_eq_false_iff t _).2 hlen)))
  · obtain ⟨t, hdt⟩ := exists_tagCode_of_lt ht
    rw [hdt, widthOfCode_tagCode] at hdvd
    exact execRfRead_error hr hp
      ((rfRead_tag h4 hdt).trans (rfFrame_truncated ((legalLength_iff t _).2 ⟨hlen, hdvd⟩) hn))

end Sys2Proof.Machine

/-! PROOFS. Driver: each outcome of the record step in every row of the header, and of SQ.STEP on the bytes at the
cursor (R131 to R137, R150 to R162). -/

namespace Sys2Proof.Machine

/-! ### One row, one outcome -/

/-- Settles O29: the header selects the record step of its tag. -/
theorem sqStepCommits : Obligations.SqStepCommits := by
  rintro s t l rt name ⟨h4, rfl, rfl, ht⟩ hf hc hn
  exact (execSqStep_tag hf.1 h4 ht).trans (recordStep_commits hf hc hn)

/-- Settles O30: the committed type is the terminator's. -/
theorem sqTermEndsTheRun : Obligations.SqTermEndsTheRun :=
  fun _ t l _ hf hc hn => (exec_sqTerm t l _).trans (recordStep_commits hf hc hn)

/-- Settles O31: both row forms are the record step of the tag, which looks the name up last. -/
theorem unknownTypeFails : Obligations.UnknownTypeFails := fun s t l rt hf hc =>
  ⟨fun hn => (exec_ofTag t l rt s).trans (recordStep_unknown hf hc hn),
   fun hn => (exec_sqTerm t l s).trans (recordStep_unknown hf hc hn)⟩

/-- Settles O32: both row forms are the record step of the tag, which frames the record first. -/
theorem corruptLengthFails : Obligations.CorruptLengthFails := fun s t l rt hr hp hl =>
  have hl' := (legalLength_eq_false_iff t l).2 hl
  ⟨(exec_ofTag t l rt s).trans (recordStep_corrupt hr hp hl'), (exec_sqTerm t l s).trans (recordStep_corrupt hr hp hl')⟩

/-- Settles O33: both row forms are the record step of the tag, which reads the payload after the length check. -/
theorem truncatedPayloadFails : Obligations.TruncatedPayloadFails := fun s t l rt hr hp hl hn =>
  ⟨(exec_ofTag t l rt s).trans (recordStep_truncated hr hp hl hn),
   (exec_sqTerm t l s).trans (recordStep_truncated hr hp hl hn)⟩

/-! ### One step, one outcome (R160) -/

/-- Settles O41: the row that the header selects is the record step that SQ.STEP comes to. -/
theorem stepIsSqStep : Obligations.StepIsSqStep := fun _ => step_eq_execSqStep

/-- Settles O34: no byte is left, which SQ.STEP checks first. -/
theorem endOfSourceIsMissingTerminator : Obligations.EndOfSourceIsMissingTerminator :=
  fun _ hc hr hp => (step_eq_execSqStep hc).trans (execSqStep_end hr hp)

/-- Settles O36: a code of no tag is 7 or more. -/
theorem illegalTagIsUnsupported : Obligations.IllegalTagIsUnsupported := fun _ hc hr h4 ht =>
  (step_eq_execSqStep hc).trans
    (execSqStep_illegalTag hr h4 ((tagOfCode_eq_none_iff _).1 (tagOfCode_eq_none ht)))

/-- Settles O40: the bytes decode as the header at the cursor does, which the step fetches. -/
theorem stepRunsDecodedInstruction : Obligations.StepRunsDecodedInstruction := by
  intro s i hc h4 hd
  rw [decode_record_cons] at hd
  cases hi : decodeHeader ⟨be16 (s.byte s.pos) (s.byte (s.pos + 1)), s.byte (s.pos + 2), s.byte (s.pos + 3)⟩ with
  | error r => rw [hi] at hd; cases hd
  | ok j =>
    rw [hi] at hd
    cases hd
    rw [step_of_noCall hc, State.fetch_of_header (State.header_of_le h4) hi]

/-- What SQ.STEP makes of the first failure at the cursor. -/
def stepOutcome (s : State) : Option ErrKind → Host.Outcome State Fault Refusal
  | some k => .next (errored s k)
  | none =>
    .next (committed s (s.byte (s.pos + 2)) ((s.nameOf (s.byte (s.pos + 2))).getD "")
      (fieldValues s (tagAt (s.byte (s.pos + 3))) (s.word16 s.pos)) (s.word16 s.pos))

/-- A record that FD does not accept: the tag ASCII with a byte of 0x80 or more (D8). -/
theorem State.not_clean_iff (s : State) (t : DataType) (l : BitVec 16) :
    ¬ s.clean t l ↔
      Config.tagCode t = 0x06 ∧ ∃ i, i < l.toNat - 4 ∧ 0x80 ≤ (s.byte (s.pos + 4 + i)).toNat := by
  refine ⟨fun h => ?_, fun ⟨ht, i, hi, hhigh⟩ hc => ?_⟩
  · rcases s.clean_or t l with hc | ⟨rfl, i, hi, hb⟩
    · exact absurd hc h
    · rw [byte_getLsbD_seven, decide_eq_true_eq] at hb
      exact ⟨rfl, i, hi, hb⟩
  · have hlow := hc (tagCode_injective (u := .ascii) ht) i hi
    rw [byte_getLsbD_seven, decide_eq_false_iff_not] at hlow
    exact hlow hhigh

/-- SQ.STEP reports the first failure in the order of R160, or commits the record. -/
theorem execSqStep_eq_stepOutcome {s : State} (hr : s.st = .reading) (hp : s.pos ≤ s.n) :
    execSqStep s = stepOutcome s (firstFailure s) := by
  dsimp only [firstFailure]
  by_cases h0 : s.pos = s.n
  · rw [if_pos h0, execSqStep_end hr h0]
    rfl
  by_cases h4 : s.n < s.pos + 4
  · rw [if_neg h0, if_pos h4, execSqStep_short hr (by omega) h4]
    rfl
  by_cases h7 : 7 ≤ (s.byte (s.pos + 3)).toNat
  · rw [if_neg h0, if_neg h4, if_pos h7, execSqStep_illegalTag hr (by omega) h7]
    rfl
  obtain ⟨t, ht⟩ := exists_tagCode_of_lt (Nat.lt_of_not_le h7)
  rw [if_neg h0, if_neg h4, if_neg h7, execSqStep_tag hr (by omega) ht, ht, widthOfCode_tagCode]
  by_cases hl : legalLength t (s.word16 s.pos) = false
  · rw [if_pos ((legalLength_eq_false_iff t _).1 hl), recordStep_corrupt hr hp hl]
    rfl
  by_cases hn : s.n < s.pos + (s.word16 s.pos).toNat
  · rw [if_neg (mt (legalLength_eq_false_iff t _).2 hl), if_pos hn,
      recordStep_truncated hr hp (Bool.of_not_eq_false hl) hn]
    rfl
  have hf : s.fits t (s.word16 s.pos) := ⟨hr, Bool.of_not_eq_false hl, Nat.le_of_not_lt hn⟩
  rw [if_neg (mt (legalLength_eq_false_iff t _).2 hl), if_neg hn]
  rcases s.clean_or t (s.word16 s.pos) with hc | ⟨rfl, i, hi, hb⟩
  · rw [if_neg fun hd => (s.not_clean_iff t _).2 hd hc]
    cases hname : s.nameOf (s.byte (s.pos + 2)) with
    | none => exact recordStep_unknown hf hc hname
    | some name =>
      rw [if_neg (Option.some_ne_none name), recordStep_commits hf hc hname, stepOutcome, hname, ht, tagAt_tagCode]
      rfl
  · have hdirty : ¬ s.clean .ascii (s.word16 s.pos) := fun hc => absurd (hc rfl i hi) (by simp [hb])
    rw [if_pos ((s.not_clean_iff .ascii _).1 hdirty), recordStep_dirty hf hi hb]
    rfl

theorem step_eq_stepOutcome {s : State} (hc : s.call = none) (hr : s.st = .reading) (hp : s.pos ≤ s.n) :
    step s = stepOutcome s (firstFailure s) :=
  (step_eq_execSqStep hc).trans (execSqStep_eq_stepOutcome hr hp)

/-- Settles O42: without a call a step is SQ.STEP, and its outcome is that of the first failure. -/
theorem stepReportsFirstFailure : Obligations.StepReportsFirstFailure := by
  intro s hc hr hp
  rw [step_eq_stepOutcome hc hr hp]
  cases firstFailure s <;> rfl

/-- A step that enters Error with a kind reports it as the first failure. -/
theorem firstFailure_of_step {s : State} {k : ErrKind} (hc : s.call = none) (hr : s.st = .reading) (hp : s.pos ≤ s.n)
    (h : step s = .next (errored s k)) : firstFailure s = some k := by
  rw [step_eq_stepOutcome hc hr hp] at h
  cases hff : firstFailure s with
  | none =>
    rw [hff] at h
    have hst := congrArg State.st (Host.Outcome.next.inj h)
    exact (committed_st_ne_error _ _ _ _ _ hst).elim
  | some k' =>
    rw [hff] at h
    rw [errored_injective h]

/-- MalformedHeader is the first failure only where one to three bytes are left. -/
theorem lt_of_firstFailure_malformed {s : State} (h : firstFailure s = some .malformedHeader) :
    s.pos ≠ s.n ∧ s.n < s.pos + 4 := by
  dsimp only [firstFailure] at h
  by_cases h0 : s.pos = s.n
  · rw [if_pos h0] at h
    cases h
  by_cases h4 : s.n < s.pos + 4
  · exact ⟨h0, h4⟩
  rw [if_neg h0, if_neg h4] at h
  split_ifs at h <;> cases h

/-- A step of the sequencer stops where the cursor is past the source. -/
theorem step_beyond {s : State} (hc : s.call = none) (hr : s.st = .reading) (hp : s.n < s.pos) :
    step s = .fault .cursorBeyondSource :=
  (step_eq_execSqStep hc).trans (execSqStep_beyond hr hp)

/-- Settles O35: where the step completes, the cursor is inside the source and the kind is the first failure. -/
theorem shortHeaderIsMalformed : Obligations.ShortHeaderIsMalformed := by
  refine fun s hc hr => ⟨fun hp hn => (step_eq_execSqStep hc).trans (execSqStep_short hr hp hn), fun h => ?_⟩
  by_cases hp : s.pos ≤ s.n
  · obtain ⟨hne, h4⟩ := lt_of_firstFailure_malformed (firstFailure_of_step hc hr hp h)
    exact ⟨by omega, h4⟩
  · rw [step_beyond hc hr (Nat.lt_of_not_le hp)] at h
    cases h

/-- Settles O44: the step is a commit. -/
theorem successAdvancesByLength : Obligations.SuccessAdvancesByLength := by
  intro s t hc hr h ht
  rcases step_reading_cases hc hr h with ⟨k, rfl⟩ | ⟨tag, name, -, hf, -, -, rfl⟩
  · exact absurd rfl ht
  · exact ⟨rfl, Nat.add_le_add_left (legalLength_ge hf.2.1) s.pos, hf.2.2, name, _, rfl⟩

/-! ### What the rows of the stream leave unchanged -/

/-- An operation of the record format other than RF.READ is SQ.STEP or the record step of some header. -/
theorem exec_stream_row {i : Instr} (hf : i.format = .record) (hi : i ≠ .rfRead) :
    i = .sqStep ∨ ∃ t l rt, ∀ s, exec i s = recordStep (elementOf t) ⟨l, rt, Config.tagCode t⟩ s := by
  rcases i.cases_ofTag with ⟨t, l, rt, rfl⟩ | ⟨l, t, rfl⟩ | ⟨sg, e, m, rfl⟩ | rfl | rfl
  · exact .inr ⟨t, l, rt, exec_ofTag t l rt⟩
  · exact .inr ⟨t, l, Config.term, exec_sqTerm t l⟩
  · cases hf
  · exact absurd rfl hi
  · exact .inl rfl

/-- Outside Reading no row of the stream does anything (R130, R137). -/
theorem exec_stream_disabled {s : State} {i : Instr} (hr : s.st ≠ .reading) (hf : i.format = .record)
    (hi : i ≠ .rfRead) : exec i s = .next s := by
  rcases exec_stream_row hf hi with rfl | ⟨t, l, rt, he⟩
  · exact execSqStep_disabled hr
  · rw [he, recordStep_disabled hr]

/-- Everything a row of the stream can complete with. -/
theorem exec_stream_cases {s t : State} {i : Instr} (hf : i.format = .record) (hi : i ≠ .rfRead)
    (h : exec i s = .next t) :
    t = s ∨ (∃ k, t = errored s k) ∨ ∃ rt name vs l, t = committed s rt name vs l := by
  by_cases hr : s.st = .reading
  · rcases exec_stream_row hf hi with rfl | ⟨tag, l, rt, he⟩
    · change execSqStep s = _ at h
      by_cases hp : s.pos ≤ s.n
      · rcases execSqStep_cases hr hp with ⟨k, hk⟩ | ⟨_, _, _, _, _, _, hk⟩ <;> rw [hk] at h <;> cases h
        · exact .inr (.inl ⟨k, rfl⟩)
        · exact .inr (.inr ⟨_, _, _, _, rfl⟩)
      · rw [execSqStep_beyond hr (Nat.lt_of_not_le hp)] at h
        cases h
    · rw [he] at h
      by_cases hp : s.pos ≤ s.n
      · rcases recordStep_cases hr hp with ⟨k, hk⟩ | ⟨_, _, _, _, hk⟩ <;> rw [hk] at h <;> cases h
        · exact .inr (.inl ⟨k, rfl⟩)
        · exact .inr (.inr ⟨_, _, _, _, rfl⟩)
      · rw [recordStep_beyond hr (Nat.lt_of_not_le hp)] at h
        cases h
  · rw [exec_stream_disabled hr hf hi] at h
    cases h
    exact .inl rfl

/-- Settles O38: nothing, the entry to Error, or a commit. -/
theorem streamRowsFrame : Obligations.StreamRowsFrame := by
  intro s t i hf hi h
  rcases exec_stream_cases hf hi h with rfl | ⟨k, rfl⟩ | ⟨rt, name, vs, l, rfl⟩
  · exact ⟨⟨rfl, rfl, rfl⟩, rfl, rfl, fun _ => rfl, .inr rfl, [], (List.append_nil _).symm, Nat.zero_le 1⟩
  · exact ⟨⟨rfl, rfl, rfl⟩, rfl, rfl, fun _ => rfl, .inl rfl, [], (List.append_nil _).symm, Nat.zero_le 1⟩
  · exact ⟨⟨rfl, rfl, rfl⟩, rfl, rfl, fun _ => rfl, .inl rfl, [(name, vs)], rfl, Nat.le_refl 1⟩

/-- The frame of a step of the sequencer. -/
theorem step_frame {s t : State} (hc : s.call = none) (h : step s = .next t) :
    sameRun s t ∧ t.call = s.call ∧ t.reply = s.reply ∧ (∀ a, t.byte a = s.byte a) ∧
      (t.latch = Record.blank ∨ t = s) ∧ ∃ tail, t.out = s.out ++ tail ∧ tail.length ≤ 1 :=
  streamRowsFrame s t .sqStep rfl nofun ((step_eq_execSqStep hc).symm.trans h)

/-- Settles O39: every call leaves the run's parameters too. -/
theorem stepKeepsRunParameters : Obligations.StepKeepsRunParameters := by
  intro s t h
  cases hc : s.call with
  | none =>
    obtain ⟨hrun, -, -, hbytes, -, -⟩ := step_frame hc h
    exact ⟨hrun, hbytes⟩
  | some c =>
    rcases step_call_cases hc h with ⟨-, rfl⟩ | ⟨-, r, p, reply, -, rfl⟩ | ⟨-, reply, rfl⟩ | ⟨reply, rfl⟩ | ⟨-, rfl⟩ <;>
      exact ⟨⟨rfl, rfl, rfl⟩, fun _ => rfl⟩

/-- Outside Reading a call other than reset leaves all but the call and the answer. -/
theorem step_call_outside_reading {s t : State} {c : Call} (hr : s.st ≠ .reading) (hc : s.call = some c)
    (hne : c ≠ .reset) (h : step s = .next t) : t = { s with call := t.call, reply := t.reply } := by
  rcases step_call_cases hc h with ⟨hreset, -⟩ | ⟨hr', -⟩ | ⟨hr', -⟩ | ⟨reply, rfl⟩ | ⟨-, rfl⟩
  · exact absurd hreset hne
  · exact absurd hr' hr
  · exact absurd hr' hr
  · rfl
  · rfl

theorem step_outside_reading {s : State} (hc : s.call = none) (hr : s.st ≠ .reading) : step s = .next s :=
  (step_eq_execSqStep hc).trans (execSqStep_disabled hr)

/-- Settles O37: no row is enabled, and the calls but reset leave an answer or nothing. -/
theorem doneAndErrorAreAbsorbing : Obligations.DoneAndErrorAreAbsorbing := by
  refine fun s hr => ⟨fun i => exec_stream_disabled hr, execRfRead_disabled hr, fun hc => step_outside_reading hc hr,
    fun t hne h => ?_⟩
  cases hc : s.call with
  | none =>
    rw [step_outside_reading hc hr] at h
    cases h
    rfl
  | some c => exact step_call_outside_reading hr hc (fun he => hne (he ▸ hc)) h

end Sys2Proof.Machine

/-! PROOFS. The machine: reset (R21, R180), the host's calls (R19, R90, R110), where a step stops (R90, R110), and the
invariant, which every step keeps. -/

namespace Sys2Proof.Machine

/-! ### Reset and the codes -/

/-- Settles O48, by evaluating the reset state. -/
theorem resetStateValues : Obligations.ResetStateValues := ⟨rfl, rfl, rfl, rfl⟩

/-- Settles O49: the call is served by `State.applyReset`, which is this state. -/
theorem resetCommandEffect : Obligations.ResetCommandEffect := fun _ hc => step_of_call hc

/-- The kind of an error code (R150). -/
def kindOfCode (c : BitVec 3) : ErrKind :=
  match c.toNat with
  | 1 => .malformedHeader
  | 2 => .unsupportedDataType
  | 3 => .corruptRecordLength
  | 4 => .truncatedPayload
  | 5 => .invalidEncoding
  | 6 => .unknownRecordType
  | _ => .missingTerminator

theorem kindOfCode_code (k : ErrKind) : kindOfCode k.code = k := by cases k <;> rfl

theorem ErrKind.code_ne_zero (k : ErrKind) : k.code ≠ 0 := by cases k <;> decide

theorem State.errKind_of_err {s : State} {e : ErrRecord} (h : s.err = some e) : s.errKind = e.kind.code := by
  rw [State.errKind, h]

/-- Settles O57: each code gives its kind back. -/
theorem errorKindsStayDistinct : Obligations.ErrorKindsStayDistinct := by
  intro s t e e' he he'
  rw [State.errKind_of_err he, State.errKind_of_err he']
  exact ⟨e.kind.code_ne_zero, fun h => Function.LeftInverse.injective kindOfCode_code h⟩

/-! ### FD's contract (R90, U9) -/

theorem decodeChunks_ne_outside {f : Chunk → Element} :
    ∀ {cs : List Chunk}, (∀ c ∈ cs, f c ≠ .outside) → decodeChunks f cs ≠ .outside
  | [], _ => nofun
  | c :: cs, h => by
    have ih := decodeChunks_ne_outside fun d hd => h d (List.mem_cons_of_mem c hd)
    have hc := h c (List.mem_cons_self ..)
    rw [decodeChunks]
    cases hfc : f c with
    | err k => nofun
    | outside => exact absurd hfc hc
    | nothing => exact ih
    | emit v =>
      cases hcs : decodeChunks f cs with
      | ok vs => nofun
      | err k => nofun
      | outside => exact absurd hcs ih

/-- A chunk of the tag's width is inside the contract (R55). -/
theorem elementOf_ne_outside : ∀ {t : DataType} {c : Chunk}, c.length = Config.width t → elementOf t c ≠ .outside
  | .noData, _, _ => nofun
  | .bitArray, _, _ => nofun
  | .int16, [_, _], _ => nofun
  | .int32, [_, _, _, _], _ => nofun
  | .real32, [_, _, _, _], _ => nofun
  | .real64, [_, _, _, _, _, _, _, _], _ => nofun
  | .ascii, [b], _ => by
    change (if b.getLsbD 7 then Element.err .invalidEncoding else .emit (.character b)) ≠ .outside
    split <;> nofun

theorem wf_of_tag {r : Record} {t : DataType} (h : r.dataType = Config.tagCode t) : r.wf = r.wfFor t := by
  rw [Record.wf, h, tagOfCode_tagCode]

theorem exists_tag_of_wf {r : Record} (h : r.wf = true) : ∃ t, r.dataType = Config.tagCode t := by
  cases ht : tagOfCode r.dataType with
  | none => rw [Record.wf, ht] at h; cases h
  | some t => exact ⟨t, tagCode_of_tagOfCode _ t ht⟩

/-- On a legal tag FD used alone decodes the records inside its contract, as behind RF, and no other. -/
theorem fdAlone_of_tag {r : Record} {t : DataType} (h : r.dataType = Config.tagCode t) :
    fdAlone r = if r.wf then fdDecode r else .outside := by
  rw [fdAlone, wf_of_tag h, fdDecode_of_tag h, h, tagOfCode_tagCode]

theorem fdAlone_of_wf {r : Record} (h : r.wf = true) : fdAlone r = fdDecode r := by
  obtain ⟨t, ht⟩ := exists_tag_of_wf h
  rw [fdAlone_of_tag ht, if_pos h]

/-- FD decodes every record that meets the invariant of R11, its chunks being of the tag's width. -/
theorem fdDecode_ne_outside {r : Record} (h : r.wf = true) : fdDecode r ≠ .outside := by
  obtain ⟨t, ht⟩ := exists_tag_of_wf h
  rw [wf_of_tag ht, Record.wfFor, Bool.and_eq_true, List.all_eq_true] at h
  rw [fdDecode_of_tag ht]
  exact decodeChunks_ne_outside fun c hc => elementOf_ne_outside (beq_iff_eq.1 (h.2 c hc))

/-- FD used alone stops on the records of a legal tag that break the invariant of R11. -/
theorem fdAlone_eq_outside_iff (r : Record) :
    fdAlone r = .outside ↔ r.wf = false ∧ ∃ t, r.dataType = Config.tagCode t := by
  cases ht : tagOfCode r.dataType with
  | none =>
    have h7 := (tagOfCode_eq_none_iff _).1 ht
    rw [fdAlone_unknownTag h7]
    refine ⟨nofun, fun ⟨_, t, he⟩ => ?_⟩
    have := tagCode_toNat_lt t
    rw [he] at h7
    omega
  | some t =>
    have htag := tagCode_of_tagOfCode _ t ht
    rw [fdAlone_of_tag htag]
    cases hwf : r.wf with
    | true => exact ⟨fun h => absurd h (fdDecode_ne_outside hwf), nofun⟩
    | false => exact ⟨fun _ => ⟨rfl, t, htag⟩, fun _ => rfl⟩

/-! ### The host's calls -/

/-- Settles O50: a call runs its component, and FD on a well-formed record is FD behind RF. -/
theorem callsRunTheirComponent : Obligations.CallsRunTheirComponent := by
  intro s
  refine ⟨fun sign e m hc => ?_, fun hc => step_of_call hc, fun tag c hc => step_of_call hc,
    fun r vs hc hwf hd => ?_, fun r k hc hwf hd => ?_, fun vs hc hr hwf hd => ?_, fun k hc hr hwf hd => ?_⟩
  · rw [step_of_call hc, serve, decodeCf64_append]
  · rw [step_of_call hc, serve, serveDecode, fdAlone_of_wf hwf, hd]
    rfl
  · rw [step_of_call hc, serve, serveDecode, fdAlone_of_wf hwf, hd]
    rfl
  · rw [step_of_call hc, serve, serveDecodeLatch, if_neg (by simp [hr]), fdAlone_of_wf hwf, hd]
    rfl
  · rw [step_of_call hc, serve, serveDecodeLatch, if_neg (by simp [hr]), fdAlone_of_wf hwf, hd]
    rfl

/-! ### Where a step stops -/

/-- A record is about to be read with the cursor past the source (R12, R110). -/
def State.readsBeyond (s : State) : Prop :=
  s.n < s.pos ∧ s.st = .reading ∧ (s.call = none ∨ s.call = some .readRecord)

/-- FD is about to be put to a record of a legal tag that breaks the invariant of R11 (U9). -/
def State.putsOutside (s : State) : Prop :=
  ∃ r : Record, r.wf = false ∧ (∃ t, r.dataType = Config.tagCode t) ∧
    (s.call = some (.decode r) ∨ (s.call = some .decodeLatch ∧ s.st = .reading ∧ s.latch = r))

section
variable {s : State}

theorem step_of_readsBeyond (h : s.readsBeyond) : step s = .fault .cursorBeyondSource := by
  obtain ⟨hp, hr, hc | hc⟩ := h
  · exact step_beyond hc hr hp
  · exact (step_of_call hc).trans (execRfRead_beyond hr hp)

theorem step_of_putsOutside (h : s.putsOutside) : step s = .refused .recordOutsideContract := by
  obtain ⟨r, hwf, htag, hc | ⟨hc, hr, rfl⟩⟩ := h
  · rw [step_of_call hc, serve, serveDecode, (fdAlone_eq_outside_iff r).2 ⟨hwf, htag⟩]
    rfl
  · rw [step_of_call hc, serve, serveDecodeLatch, if_neg (by simp [hr]),
      (fdAlone_eq_outside_iff s.latch).2 ⟨hwf, htag⟩]
    rfl

theorem execSqStep_completes (hp : s.st = .reading → s.pos ≤ s.n) : Completes (execSqStep s) := by
  by_cases hr : s.st = .reading
  · rcases execSqStep_cases hr (hp hr) with ⟨_, h⟩ | ⟨_, _, _, _, _, _, h⟩ <;> exact ⟨_, h⟩
  · exact ⟨s, execSqStep_disabled hr⟩

theorem execRfRead_completes (hp : s.st = .reading → s.pos ≤ s.n) : Completes (execRfRead s) := by
  by_cases hr : s.st = .reading
  · cases h : rfRead s with
    | error k => exact ⟨_, execRfRead_error hr (hp hr) h⟩
    | ok rp => exact ⟨_, execRfRead_ok hr (hp hr) h⟩
  · exact ⟨_, execRfRead_disabled hr⟩

theorem answerDecoded_completes {d : Decoded} (h : d ≠ .outside) : Completes (answerDecoded s d) := by
  cases d with
  | ok vs => exact ⟨_, rfl⟩
  | err k => exact ⟨_, rfl⟩
  | outside => exact absurd rfl h

/-- FD's answer to a record that is no reason to stop. -/
theorem fdAlone_ne_outside {r : Record} (h : (∃ t, r.dataType = Config.tagCode t) → r.wf ≠ false) :
    fdAlone r ≠ .outside := fun ho =>
  have ⟨hwf, htag⟩ := (fdAlone_eq_outside_iff r).1 ho
  h htag hwf

/-- A step that neither reads beyond the source nor puts FD outside its contract has a next state. -/
theorem step_completes (hb : ¬ s.readsBeyond) (ho : ¬ s.putsOutside) : Completes (step s) := by
  cases hc : s.call with
  | none =>
    rw [step_eq_execSqStep hc]
    exact execSqStep_completes fun hr => Nat.not_lt.1 fun hp => hb ⟨hp, hr, .inl hc⟩
  | some c =>
    rw [step_of_call hc]
    cases c with
    | reset => exact ⟨_, rfl⟩
    | convert chunk => exact ⟨_, rfl⟩
    | element tag chunk => exact ⟨_, rfl⟩
    | decode r =>
      exact answerDecoded_completes (fdAlone_ne_outside fun htag hwf => ho ⟨r, hwf, htag, .inl hc⟩)
    | decodeLatch =>
      change Completes (serveDecodeLatch s)
      unfold serveDecodeLatch
      split
      · exact ⟨_, rfl⟩
      · next hr =>
        exact answerDecoded_completes
          (fdAlone_ne_outside fun htag hwf => ho ⟨s.latch, hwf, htag, .inr ⟨hc, not_not.1 hr, rfl⟩⟩)
    | readRecord => exact execRfRead_completes fun hr => Nat.not_lt.1 fun hp => hb ⟨hp, hr, .inr hc⟩

end

/-- Settles O51: each stop has its condition, and without both a step has a next state. -/
theorem stopsOutsideTheContractOnly : Obligations.StopsOutsideTheContractOnly := by
  intro s
  by_cases hb : s.readsBeyond
  · have hstep := step_of_readsBeyond hb
    have ho : ¬ s.putsOutside := fun ho => nomatch hstep.symm.trans (step_of_putsOutside ho)
    exact ⟨iff_of_true hstep hb, iff_of_false (by rw [hstep]; nofun) ho, fun m => by rw [hstep]; nofun⟩
  by_cases ho : s.putsOutside
  · have hstep := step_of_putsOutside ho
    exact ⟨iff_of_false (by rw [hstep]; nofun) hb, iff_of_true hstep ho, fun m => by rw [hstep]; nofun⟩
  obtain ⟨t, hstep⟩ := step_completes hb ho
  exact ⟨iff_of_false (by rw [hstep]; nofun) hb, iff_of_false (by rw [hstep]; nofun) ho,
    fun m => by rw [hstep]; nofun⟩

/-! ### The invariant -/

/-- Settles O46, by evaluating the invariant at reset. -/
theorem resetMeetsInvariant : Obligations.ResetMeetsInvariant := ⟨rfl, rfl, rfl, rfl, rfl, rfl, rfl⟩

section
variable {s : State}

theorem State.Inv.pos_le (h : s.Inv) : s.pos ≤ s.n := of_decide_eq_true h.2.1

theorem State.Inv.latch_wf (h : s.Inv) : s.latch.wf = true :=
  have ⟨_, _, _, _, hlatch, _⟩ := h
  hlatch

/-- In Reading there is no error (R15). -/
theorem State.Inv.err_eq_none (h : s.Inv) (hr : s.st = .reading) : s.err = none := by
  obtain ⟨-, -, herr, -⟩ := h
  cases he : s.err with
  | none => rfl
  | some e => simp [State.errOk, he, hr] at herr

theorem inv_applyReset (h : s.Inv) : s.applyReset.Inv :=
  ⟨h.1, decide_eq_true (Nat.zero_le s.n), rfl, rfl, rfl, rfl, rfl⟩

theorem inv_answer (h : s.Inv) (r : Reply) : (s.answer r).Inv := h

theorem inv_dismiss (h : s.Inv) : s.dismiss.Inv := h

theorem inv_hold {r : Record} (h : s.Inv) (hwf : r.wf = true) : (s.hold r).Inv :=
  have ⟨hsrc, hpos, herr, hout, _, hrest⟩ := h
  ⟨hsrc, hpos, herr, hout, hwf, hrest⟩

theorem inv_errored (h : s.Inv) (k : ErrKind) : (errored s k).Inv := by
  obtain ⟨hsrc, hpos, -, hout, -, -, hprog⟩ := h
  exact ⟨hsrc, hpos, by simp [State.errOk, errored], hout, rfl, rfl, hprog⟩

/-- The values of a record that FD accepts may stand in `OUT` (R102). -/
theorem fieldValues_legal {t : DataType} {l : BitVec 16} (hc : s.clean t l) :
    (fieldValues s t l).all DecodedValue.legal = true :=
  List.all_eq_true.2 (decodeChunks_ok_forall (elementOf_emit_legal t) (decodeChunks_recordAt (rt := 0) hc))

theorem inv_committed {t : DataType} {l : BitVec 16} (h : s.Inv) (hf : s.fits t l) (hc : s.clean t l) (rt : Byte)
    (name : String) : (committed s rt name (fieldValues s t l) l).Inv := by
  have herr := h.err_eq_none hf.1
  have hst := committed_st_ne_error s rt name (fieldValues s t l) l
  have h4 := legalLength_ge hf.2.1
  obtain ⟨hsrc, -, -, hout, -, -, hprog⟩ := h
  refine ⟨hsrc, decide_eq_true hf.2.2, ?_, ?_, rfl, ?_, ?_⟩
  · rw [State.errOk, show (committed s rt name (fieldValues s t l) l).err = none from herr]
    exact decide_eq_true hst
  · have hout' : (s.out ++ [(name, fieldValues s t l)]).all (fun p => p.2.all DecodedValue.legal) = true := by
      rw [List.all_append, Bool.and_eq_true]
      exact ⟨hout, by simpa using fieldValues_legal hc⟩
    exact hout'
  · simp [State.doneOk, committed]
  · have hprog' : 4 * s.out.length ≤ s.pos := of_decide_eq_true hprog
    refine decide_eq_true (?_ : 4 * (s.out ++ [(name, fieldValues s t l)]).length ≤ s.pos + l.toNat)
    rw [List.length_append, List.length_singleton]
    omega

end

/-- Settles O45: a step is nothing, the entry to Error or a commit, and a call is reset, an answer, or leaves a record
that RF has framed or the blank one in `REC`. -/
theorem stepKeepsInvariant : Obligations.StepKeepsInvariant := by
  intro s t hinv h
  cases hc : s.call with
  | none =>
    by_cases hr : s.st = .reading
    · rcases step_reading_cases hc hr h with ⟨k, rfl⟩ | ⟨tag, name, -, hf, hcl, -, rfl⟩
      · exact inv_errored hinv k
      · exact inv_committed hinv hf hcl _ name
    · rw [step_outside_reading hc hr] at h
      cases h
      exact hinv
  | some c =>
    rcases step_call_cases hc h with
      ⟨-, rfl⟩ | ⟨-, r, p, reply, hrf, rfl⟩ | ⟨-, reply, rfl⟩ | ⟨reply, rfl⟩ | ⟨-, rfl⟩
    · exact inv_applyReset hinv
    · exact inv_answer (inv_hold hinv (rfRecordsAreWellFormed s r p hrf).1) reply
    · exact inv_answer (inv_hold hinv (r := Record.blank) rfl) reply
    · exact inv_answer hinv reply
    · exact inv_dismiss hinv

/-- Settles O47: the invariant rules out both stops. -/
theorem stepAlwaysCompletes : Obligations.StepAlwaysCompletes := by
  intro s hinv hcall
  refine step_completes (fun ⟨hp, _⟩ => absurd hinv.pos_le (Nat.not_le.2 hp)) fun ⟨r, hwf, ⟨t, ht⟩, hc⟩ => ?_
  rcases hc with hc | ⟨-, -, rfl⟩
  · rw [State.callOk, hc] at hcall
    rcases hcall with hnone | hwf'
    · rw [ht, tagOfCode_tagCode] at hnone
      cases hnone
    · rw [hwf] at hwf'
      cases hwf'
  · rw [hinv.latch_wf] at hwf
    cases hwf

end Sys2Proof.Machine

/-! PROOFS. Runs of several steps: their end (R137), their output (R35), and what a run and a step depend on (R138,
R139). -/

namespace Sys2Proof.Machine

/-! ### Runs -/

theorem run_succ_of_next {k : Nat} {s u : State} (h : step s = .next u) : core.run (k + 1) s = core.run k u := by
  rw [run_succ, h]

/-- The first step of a run that gives a next state. -/
theorem run_succ_cases {k : Nat} {s t : State} (h : core.run (k + 1) s = .next t) :
    ∃ u, step s = .next u ∧ core.run k u = .next t := by
  rw [run_succ] at h
  cases hs : step s with
  | next u => rw [hs] at h; exact ⟨u, rfl, h⟩
  | fault r => rw [hs] at h; cases h
  | refused r => rw [hs] at h; cases h

/-- A run that is over stays as it is (R137). -/
theorem run_outside_reading {s : State} (hc : s.call = none) (hr : s.st ≠ .reading) :
    ∀ k, core.run k s = .next s
  | 0 => rfl
  | k + 1 => (run_succ_of_next (step_outside_reading hc hr)).trans (run_outside_reading hc hr k)

theorem call_of_step {s t : State} (hc : s.call = none) (h : step s = .next t) : t.call = none := by
  obtain ⟨-, hcall, -⟩ := step_frame hc h
  rw [hcall, hc]

/-- Settles O53, by induction on the number of steps: each appends. -/
theorem outputIsAppendOnly : Obligations.OutputIsAppendOnly := by
  intro k
  induction k with
  | zero =>
    intro s t _ h
    cases h
    exact ⟨[], (List.append_nil _).symm⟩
  | succ k ih =>
    intro s t hc h
    obtain ⟨u, hstep, hrun⟩ := run_succ_cases h
    obtain ⟨-, -, -, -, -, tail, hout, -⟩ := step_frame hc hstep
    obtain ⟨tail', hout'⟩ := ih u t (call_of_step hc hstep) hrun
    exact ⟨tail ++ tail', by rw [hout', hout, List.append_assoc]⟩

/-! ### The end of a run -/

/-- From a state of the invariant a step in Reading completes, and it ends the run or moves the cursor by four bytes or
more. -/
theorem step_progress {s : State} (hinv : s.Inv) (hc : s.call = none) (hr : s.st = .reading) :
    ∃ u, step s = .next u ∧ u.Inv ∧ u.call = none ∧ u.n = s.n ∧ (u.st = .reading → s.pos + 4 ≤ u.pos) := by
  obtain ⟨u, hstep⟩ := stepAlwaysCompletes s hinv (by rw [State.callOk, hc]; trivial)
  refine ⟨u, hstep, stepKeepsInvariant s u hinv hstep, call_of_step hc hstep,
    (stepKeepsRunParameters s u hstep).1.2.1, fun hur => ?_⟩
  have hne : u.st ≠ .error := by rw [hur]; nofun
  exact (successAdvancesByLength s u hc hr hstep hne).2.1

/-- A run is over after one step more than there are whole groups of four bytes left. -/
theorem run_ends (k : Nat) {s : State} (hinv : s.Inv) (hc : s.call = none) (hk : s.n - s.pos < 4 * (k + 1)) :
    ∃ t : State, core.run (k + 1) s = .next t ∧ t.st ≠ .reading := by
  by_cases hr : s.st = .reading
  · obtain ⟨u, hstep, huinv, huc, hun, hpos⟩ := step_progress hinv hc hr
    rw [run_succ_of_next hstep]
    by_cases hur : u.st = .reading
    · have hpos := hpos hur
      have hle := huinv.pos_le
      cases k with
      | zero => omega
      | succ k => exact run_ends k huinv huc (by omega)
    · exact ⟨u, run_outside_reading huc hur k, hur⟩
  · exact ⟨s, run_outside_reading hc hr (k + 1), hr⟩

/-- Settles O52: the bound is `run_ends` at the whole groups of four bytes left. -/
theorem runEndsInBoundedSteps : Obligations.RunEndsInBoundedSteps :=
  fun s hinv hc => run_ends ((s.n - s.pos) / 4) hinv hc (by omega)

/-! ### A run depends on its parameters only (R139) -/

/-- The first failure is read off the source, the name table and the cursor. -/
theorem firstFailure_reply (s : State) (r : Option Reply) : firstFailure { s with reply := r } = firstFailure s := rfl

/-- A step of the sequencer neither reads nor writes the last answer. -/
theorem step_reply {s t : State} (hc : s.call = none) (h : step s = .next t) (r : Option Reply) :
    step { s with reply := r } = .next { t with reply := r } := by
  by_cases hr : s.st = .reading
  · by_cases hp : s.pos ≤ s.n
    · rw [step_eq_stepOutcome hc hr hp] at h
      rw [step_eq_stepOutcome (s := { s with reply := r }) hc hr hp, firstFailure_reply]
      cases hff : firstFailure s <;> rw [hff] at h <;> cases h <;> rfl
    · rw [step_beyond hc hr (Nat.lt_of_not_le hp)] at h
      cases h
  · rw [step_outside_reading hc hr] at h
    cases h
    exact step_outside_reading (s := { s with reply := r }) hc hr

theorem run_reply : ∀ (k : Nat) {s t : State}, s.call = none → core.run k s = .next t → ∀ r : Option Reply,
    core.run k { s with reply := r } = .next { t with reply := r }
  | 0, _, _, _, h, _ => by cases h; rfl
  | k + 1, _, _, hc, h, r => by
    obtain ⟨u, hstep, hrun⟩ := run_succ_cases h
    exact (run_succ_of_next (step_reply hc hstep r)).trans (run_reply k (call_of_step hc hstep) hrun r)

/-- Settles O54: after reset the two states differ in the last answer alone. -/
theorem runDependsOnParametersOnly : Obligations.RunDependsOnParametersOnly := by
  rintro k s s' t ⟨hsrc, hn, hnames⟩ h
  have hreset : s'.applyReset = { s.applyReset with reply := s'.reply } := by
    simp only [State.applyReset, hsrc, hn, hnames]
  rw [hreset]
  exact run_reply k rfl h s'.reply

/-! ### A step reads only its record (R138) -/

/-- The bytes from `lo` up to `hi` read alike in both states. -/
def bytesAgree (u s : State) (lo hi : Nat) : Prop := ∀ a, lo ≤ a → a < hi → u.byte a = s.byte a

section
variable {u s : State} {lo hi a : Nat} (h : bytesAgree u s lo hi) (hlo : lo ≤ a)
include h hlo

theorem word16_congr (hhi : a + 2 ≤ hi) : u.word16 a = s.word16 a := by
  rw [State.word16, State.word16, h a hlo (by omega), h (a + 1) (by omega) (by omega)]

theorem word32_congr (hhi : a + 4 ≤ hi) : u.word32 a = s.word32 a := by
  rw [State.word32, State.word32, word16_congr h hlo (by omega), word16_congr h (a := a + 2) (by omega) (by omega)]

theorem word64_congr (hhi : a + 8 ≤ hi) : u.word64 a = s.word64 a := by
  rw [State.word64, State.word64, word32_congr h hlo (by omega), word32_congr h (a := a + 4) (by omega) (by omega)]

end

section
variable {u s : State} {t : DataType} {l : BitVec 16} (hp : u.pos = s.pos)
  (h : bytesAgree u s s.pos (s.pos + l.toNat))
include hp h

/-- The values of a record are read off its own bytes. -/
theorem fieldValues_congr : fieldValues u t l = fieldValues s t l := by
  cases t <;> simp only [fieldValues, hp] <;> refine List.map_congr_left fun i hi => ?_ <;>
    rw [List.mem_range] at hi
  case int16 => rw [word16_congr h (by omega) (by omega)]
  case int32 => rw [word32_congr h (by omega) (by omega)]
  case real32 => rw [word32_congr h (by omega) (by omega)]
  case real64 => rw [word64_congr h (by omega) (by omega)]
  case ascii => rw [h (s.pos + 4 + i) (by omega) (by omega)]

/-- Whether FD accepts a record is read off its own bytes. -/
theorem clean_congr (hc : s.clean t l) : u.clean t l := by
  intro ht i hi
  rw [hp, h (s.pos + 4 + i) (by omega) (by omega)]
  exact hc ht i hi

/-- The header of a record is read off its first four bytes. -/
theorem headerIs_congr {rt dt : Byte} (hn : u.n = s.n) (hl : 4 ≤ l.toNat) (hh : s.headerIs l rt dt) :
    u.headerIs l rt dt := by
  obtain ⟨h4, rfl, rfl, rfl⟩ := hh
  rw [State.headerIs, hp, hn]
  exact ⟨h4, word16_congr h (Nat.le_refl s.pos) (by omega), h _ (by omega) (by omega), h _ (by omega) (by omega)⟩

end

/-- Settles O55: the header, the check of the payload and the values agree over the replaced source. -/
theorem stepReadsOnlyItsRecord : Obligations.StepReadsOnlyItsRecord := by
  intro s t src' hc hr h ht hagree
  rcases step_reading_cases hc hr h with ⟨k, rfl⟩ | ⟨tag, name, htag, hf, hcl, hname, rfl⟩
  · exact absurd rfl ht
  have hpos : ({ s with src := src' } : State).pos = s.pos := rfl
  have h4 := legalLength_ge hf.2.1
  have hheader : s.headerIs (s.word16 s.pos) (s.byte (s.pos + 2)) (Config.tagCode tag) :=
    ⟨by have := hf.2.2; omega, rfl, rfl, htag⟩
  have hcommit := sqStepCommits _ tag _ _ name (headerIs_congr hpos hagree rfl h4 hheader) hf
    (clean_congr hpos hagree hcl) hname
  rw [fieldValues_congr hpos hagree] at hcommit
  exact (stepIsSqStep { s with src := src' } hc).trans hcommit

end Sys2Proof.Machine

/-! PROOFS. The spec's own textual form (R60): the bytes of a record line decode to the line's values. -/

namespace Sys2Proof.Machine

/-! ### The chunks of a line -/

/-- Each element takes the width of its tag (R60). -/
theorem chunks_length (es : Elements) : ∀ c ∈ es.chunks, c.length = Config.width es.tag := by
  cases es with
  | nodata => nofun
  | bitarray bs => exact List.forall_mem_map.2 fun _ _ => rfl
  | int16 vs => exact List.forall_mem_map.2 fun _ _ => rfl
  | int32 vs => exact List.forall_mem_map.2 fun _ _ => rfl
  | real32 vs => exact List.forall_mem_map.2 fun _ _ => rfl
  | real64 vs => exact List.forall_mem_map.2 fun _ _ => rfl
  | ascii cs => exact List.forall_mem_map.2 fun _ _ => rfl

/-- A 7-bit character's byte is a character to FD (R97). -/
theorem elementAscii_zeroExtend (c : BitVec 7) :
    elementAscii [c.zeroExtend 8] = .emit (.character (c.zeroExtend 8)) := by
  have hbit : (c.zeroExtend 8).getLsbD 7 = false := by simp
  exact if_neg (by rw [hbit]; nofun)

/-- FD makes of a line's chunks the line's values (R91 to R97). -/
theorem decodeChunks_chunks (es : Elements) : decodeChunks (elementOf es.tag) es.chunks = .ok es.values := by
  cases es with
  | nodata => rfl
  | bitarray bs => exact decodeChunks_nothing fun _ _ => rfl
  | int16 vs => exact decodeChunks_emit fun v _ => congrArg (fun v => Element.emit (.int16 v)) (be16_extract v)
  | int32 vs => exact decodeChunks_emit fun v _ => congrArg (fun v => Element.emit (.int32 v)) (be32_extract v)
  | real32 vs => exact decodeChunks_emit fun v _ => congrArg (fun v => Element.emit (.float32 v)) (be32_extract v)
  | real64 vs => exact decodeChunks_emit fun c _ => elementReal64_bytes64 c
  | ascii cs => exact decodeChunks_emit fun c _ => elementAscii_zeroExtend c

/-- Chunks of one width, read off the bytes they make side by side (R54). -/
theorem chunks_of_flatten {w : Nat} : ∀ {cs : List Chunk}, (∀ c ∈ cs, c.length = w) →
    ((List.range cs.length).map fun i => (List.range w).map fun j => cs.flatten.getD (i * w + j) 0) = cs
  | [], _ => rfl
  | c :: cs, h => by
    have hc : c.length = w := h c (List.mem_cons_self ..)
    rw [List.length_cons, List.range_succ_eq_map, List.map_cons, List.map_map]
    refine congrArg₂ List.cons ?_ ?_
    · refine List.ext_getElem (by simp [hc]) fun j hj hj' => ?_
      simp [List.getElem?_append_left hj', hj']
    · refine (List.map_congr_left fun i _ => List.map_congr_left fun j _ => ?_).trans
        (chunks_of_flatten fun d hd => h d (List.mem_cons_of_mem c hd))
      rw [List.flatten_cons, List.getD_append_right _ _ _ _ (by rw [hc, Nat.succ_mul]; omega), hc]
      congr 1
      rw [Nat.succ_mul]
      omega

/-- The bytes of a line's chunks. -/
theorem flatten_chunks_length (es : Elements) :
    es.chunks.flatten.length = es.chunks.length * Config.width es.tag := by
  rw [List.length_flatten, List.sum_eq_card_nsmul _ _ (List.forall_mem_map.2 (chunks_length es)), List.length_map,
    smul_eq_mul]

/-- Only NoData has elements of no width, and it has none. -/
theorem chunks_eq_nil_of_width {es : Elements} (h : Config.width es.tag = 0) : es.chunks = [] := by
  cases es with
  | nodata => rfl
  | _ => nomatch h

/-! ### The header of a line -/

/-- The length word of a line. -/
def Elements.lengthWord (es : Elements) : BitVec 16 := BitVec.ofNat 16 es.recordLength

/-- The bytes of a line, and the bound on its length. -/
theorem assembleRecord_eq_some {rt : Byte} {es : Elements} {bytes : List Byte} (h : assembleRecord rt es = some bytes) :
    es.recordLength ≤ 32767 ∧
      bytes = Header.bytes ⟨es.lengthWord, rt, Config.tagCode es.tag⟩ ++ es.chunks.flatten := by
  unfold assembleRecord at h
  split at h <;> cases h
  exact ⟨‹_›, rfl⟩

section
variable {es : Elements} (hL : es.recordLength ≤ 32767)
include hL

theorem lengthWord_toNat : es.lengthWord.toNat = 4 + es.chunks.length * Config.width es.tag :=
  (BitVec.toNat_ofNat ..).trans (Nat.mod_eq_of_lt (by omega))

/-- The length of a line is legal for its tag (R54, R60). -/
theorem legalLength_lengthWord : legalLength es.tag es.lengthWord = true := by
  have hn := lengthWord_toNat hL
  have hi : es.lengthWord.toInt = es.lengthWord.toNat := by
    rw [BitVec.toInt_eq_toNat_cond, if_pos]
    rw [hn]
    exact Nat.lt_of_le_of_lt (Nat.mul_le_mul_left 2 hL) (by decide)
  rw [legalLength_iff, hi, hn]
  refine ⟨by omega, ?_⟩
  rw [Nat.cast_add, Nat.cast_ofNat, add_sub_cancel_left]
  exact Int.natCast_dvd_natCast.2 (Nat.dvd_mul_left ..)

/-- Where the bytes of a line's chunks stand behind the header, the record at the cursor has these chunks. -/
theorem recordAt_payload_eq {s : State} {rt : Byte}
    (h : ∀ i < es.chunks.length * Config.width es.tag, s.byte (s.pos + 4 + i) = es.chunks.flatten.getD i 0) :
    (recordAt s es.tag es.lengthWord rt).payload = es.chunks := by
  by_cases hw : Config.width es.tag = 0
  · simp [recordAt, hw, chunks_eq_nil_of_width hw]
  · have hcount : (es.lengthWord.toNat - 4) / Config.width es.tag = es.chunks.length := by
      rw [lengthWord_toNat hL, Nat.add_sub_cancel_left, Nat.mul_div_cancel _ (Nat.pos_of_ne_zero hw)]
    refine Eq.trans ?_ (chunks_of_flatten (chunks_length es))
    simp only [recordAt, if_neg hw, hcount]
    refine List.map_congr_left fun i hi => List.map_congr_left fun j hj => ?_
    rw [List.mem_range] at hi hj
    rw [Nat.add_assoc (s.pos + 4)]
    refine h _ ?_
    calc i * Config.width es.tag + j < (i + 1) * Config.width es.tag := by rw [Nat.succ_mul]; omega
      _ ≤ es.chunks.length * Config.width es.tag := Nat.mul_le_mul_right _ hi

end

/-- Settles O56: the line's header stands at the cursor, the record behind it has the line's chunks, and FD makes of
these the line's values. -/
theorem assembledRecordDecodes : Obligations.AssembledRecordDecodes := by
  intro s rt es bytes name has hc hr hname hn hbytes
  obtain ⟨hL, rfl⟩ := assembleRecord_eq_some has
  have hlen : (Header.bytes ⟨es.lengthWord, rt, Config.tagCode es.tag⟩ ++ es.chunks.flatten).length =
      es.lengthWord.toNat := by
    rw [List.length_append, flatten_chunks_length, lengthWord_toNat hL]
    rfl
  rw [hlen] at hn hbytes ⊢
  have hle := lengthWord_toNat hL
  have hword : s.word16 s.pos = es.lengthWord := by
    rw [State.word16, ← be16_extract es.lengthWord, be16]
    exact congrArg₂ (· ++ ·) (hbytes 0 (by omega)) (hbytes 1 (by omega))
  have hrt : s.byte (s.pos + 2) = rt := hbytes 2 (by omega)
  have hdt : s.byte (s.pos + 3) = Config.tagCode es.tag := hbytes 3 (by omega)
  have hpayload := recordAt_payload_eq (s := s) (rt := rt) hL fun i hi => by
    rw [Nat.add_assoc, hbytes (4 + i) (by omega), List.getD_append_right _ _ _ _ (Nat.le_add_right 4 i)]
    exact congrArg (es.chunks.flatten.getD · 0) (Nat.add_sub_cancel_left ..)
  rw [step_eq_execSqStep hc, execSqStep_tag hr (by omega) hdt, hword, hrt,
    recordStep_fits ⟨hr, legalLength_lengthWord hL, hn⟩, hpayload, decodeChunks_chunks, finishRecord,
    State.nameOf_hold, hname]
  exact congrArg Host.Outcome.next (commit_eq_committed hr rt name es.values es.lengthWord)

end Sys2Proof.Machine
